-- ==== Sys2Proof/Word.lean ====
section
/-! DEFINITION. The word types: what the spec treats as bits. A byte is 8 bits with bit 0 the least significant
(00_scope.md R10); registers are 32 or 64 bits wide (10_state.md R30). Counts, addresses and cursors are natural
numbers, because the spec's arithmetic is exact and unsigned (00_scope.md R10, R11). -/

namespace Sys2Proof

/-- A byte: bit 0 is the least significant bit (R10). -/
abbrev Byte := BitVec 8

/-- The contents of a 32-bit register, and a command word (R30, R90). -/
abbrev Word32 := BitVec 32

/-- The contents of a 64-bit register; the host reads every register as one whole value of this width (R30). -/
abbrev Word64 := BitVec 64

end Sys2Proof
end

