-- ==== Sys2Proof/Config.lean ====
section
/-! DEFINITION. What an implementation fixes and what the spec leaves free: the memory spaces and their sizes
(20_memory.md R60, 00_scope.md R8), the open parameters, and the free values. A free value is an `opaque` constant
without a body: nothing in Lean can evaluate it, so what is proved of it holds for every value. -/

namespace Sys2Proof

/-- The byte-addressed memories that can be written (R60). `TABLE` is a ROM with constant contents and is not one of
them (R36); `CH[c]` exists for `c` in `0 .. N_CH-1` with `N_CH = 2` (R8, R38). -/
inductive Space where
  | buf
  | ch (c : Fin 2)
  | out
deriving DecidableEq, Repr

/-- The open capacity parameters of R8: `BLKSZ_MAX`, `CH_CAP`, and how much `OUT_CAP` exceeds the `3 * CH_CAP` that R8
asks of it. No step changes them; they stand in the state so that a statement about every state is a statement about
every legal implementation (log 2). With them, which of two rules is followed where they disagree (log 25). -/
structure Build where
  blkszMax     : Nat
  chCap        : Nat
  outSpare     : Nat
  /-- R16 and R191 have a model refuse the command that a broken host duty affects; R215 closes the list of refusals without
  the duties on where the source stands, what it carries, and not touching it in use. The spec does not say which
  stands, so it is open: `true` follows R191, `false` follows R215. DESIGN CHOICE (log 25). -/
  strictDuties : Bool
deriving DecidableEq, Repr

/-- `OUT_CAP`, at least `3 * CH_CAP` by construction (R8). -/
def Build.outCap (b : Build) : Nat := 3 * b.chCap + b.outSpare

/-- The size in bytes of each memory (R60). -/
def Build.size (b : Build) : Space → Nat
  | .buf  => 2 * b.blkszMax
  | .ch _ => b.chCap
  | .out  => b.outCap

/-- The ranges R8 gives the open parameters: `1 <= BLKSZ_MAX < 2^32`, `1 <= CH_CAP < 2^24`. -/
abbrev Build.wf (b : Build) : Prop :=
  1 ≤ b.blkszMax ∧ b.blkszMax < 2 ^ 32 ∧ 1 ≤ b.chCap ∧ b.chCap < 2 ^ 24

/-- The range R8 gives the host parameter `READ_CHUNK` (D30). -/
abbrev Build.readChunkOk (b : Build) (chunk : Nat) : Prop := 1 ≤ chunk ∧ chunk ≤ b.chCap ∧ chunk % 4 = 0

/-- The largest implementation R8 allows: no command word is too long for it. DESIGN CHOICE (log 2). It refuses a
command whose duty on the source is broken, as R16 and R191 say. DESIGN CHOICE between these and R215 (log 25). -/
def Build.largest : Build :=
  { blkszMax := 2 ^ 32 - 1, chCap := 2 ^ 24 - 1, outSpare := 0, strictDuties := true }

/-- What the host's parser takes as a parameter: the three container magic tags `TAG_A`, `TAG_B`, `TAG_C` (R8), each the
little-endian number of its four bytes, and the data-chunk sizes its open predicate `DATA_SIZE_OK` rejects (D34). -/
structure ContainerProfile where
  tagA          : Word32
  tagB          : Word32
  tagC          : Word32
  rejectedSizes : List Nat
deriving DecidableEq, Repr

/-- The tags of the DSF container, `"DSD "`, `"fmt "` and `"data"`, PRESUMED: general knowledge, G2 (log 16); and the
default of D34, no size rejected. -/
def ContainerProfile.dsf : ContainerProfile :=
  { tagA := 0x20445344, tagB := 0x20746D66, tagC := 0x61746164, rejectedSizes := [] }

/-- `DOP_MARKER`: the constant first byte of every DoP frame. The spec gives it no value (R8, R163). -/
opaque Config.dopMarker : Byte

/-- What a memory byte holds when nothing has written it since the `epoch`-th reset: unspecified (R62, log 4). -/
opaque Config.unwrittenByte (epoch : Nat) (sp : Space) (addr : Nat) : Byte

/-- The `k`-th free byte drawn by a command that leaves a byte `any` (R12, R152, log 5). -/
opaque Config.freeByte (k : Nat) : Byte

/-- Byte `pos` of the `k`-th stream that never ends, past the bytes laid down for it: the spec gives an endless source no
bytes (R141, U10, log 6). -/
opaque Config.endlessByte (k pos : Nat) : Byte

/-- Where a failed parse leaves the source's cursor: "an undefined position" (R171, U1, log 10). -/
opaque Config.freePosition (k : Nat) : Nat

/-- The sample format tag the host asks the sink for: not in the source (R183, D36, log 17). -/
opaque Config.sinkFormatTag : Nat

/-- The period size the host asks the sink for: not in the source (R183, D36, log 17). -/
opaque Config.sinkPeriodSize : Nat

end Sys2Proof
end

