-- ==== Sys2Proof/Syntax.lean ====
section
/-! DEFINITION. The command set: one constructor for each row of the opcode table (30_encoding.md R93). A byte count is
a natural number, as R92 reads it; that it fits the 24-bit operand field is a check of WellFormed. -/

namespace Sys2Proof

/-- The six commands of DSD-CORE (R3, R93). -/
inductive Instr where
  /-- `INIT`: make the staged format active and create an empty reader (R131). -/
  | init
  /-- `READ n`: serve up to `n` bytes of each channel into `CH[c]` (R132). -/
  | read (n : Nat)
  /-- `ENCD n`: interleave `n` bytes of each channel into direct frames (R151). -/
  | encd (n : Nat)
  /-- `ENCP n`: frame `n` bytes of each channel as DoP frames (R161). -/
  | encp (n : Nat)
  /-- `REV b`: look up one byte in `TABLE` (R124). -/
  | rev (b : Byte)
  /-- `NORM b`: normalise one byte under the active format (R125). -/
  | norm (b : Byte)
deriving DecidableEq, Repr

end Sys2Proof
end

