-- ==== Sys2Proof/WellFormed.lean ====
section
/-! DEFINITION. Which terms of `Instr` are commands that a command word can hold: a byte count fits the 24-bit operand
field (30_encoding.md R91, R92). The byte operands of `REV` and `NORM` fit by their type. -/

namespace Sys2Proof

/-- A byte count that fits the operand field: `0 <= n <= 2^24 - 1` (R92). -/
def countFits (n : Nat) : Bool := n < 2 ^ 24

/-- The command can be written as a command word. -/
def Instr.wellFormed : Instr → Bool
  | .init   => true
  | .read n => countFits n
  | .encd n => countFits n
  | .encp n => countFits n
  | .rev _  => true
  | .norm _ => true

end Sys2Proof
end

