-- ==== Sys2Proof/Decode.lean ====
section
/-! DEFINITION. The command word: its one format (30_encoding.md R91), the decoder, total on every word and rejecting
by name (R94), and after it the encoder, written from the same table (R93). The opcode numbers are the spec's own
(92_eei_decisions.md D7). -/

namespace Sys2Proof

/-- `op = word[31:24]` (R91). -/
def opField (w : Word32) : BitVec 8 := w.extractLsb' 24 8

/-- `opnd = word[23:0]` (R91). -/
def opndField (w : Word32) : BitVec 24 := w.extractLsb' 0 24

/-- `opnd[7:0]`, the byte operand of `REV` and `NORM` (R92). -/
def byteField (w : Word32) : Byte := w.extractLsb' 0 8

/-- `opnd[23:8]`, which must be 0 in `REV` and `NORM` (R92). -/
def zeroField (w : Word32) : BitVec 16 := w.extractLsb' 8 16

/-- Why a word is no command (R94). -/
inductive DecodeError where
  /-- `op` is 0x00 or in 0x07..0xFF. -/
  | reservedOpcode (op : BitVec 8)
  /-- `INIT` with `opnd != 0`. -/
  | initOperand (opnd : BitVec 24)
  /-- `REV` or `NORM` with `opnd[23:8] != 0`. -/
  | byteOperand (high : BitVec 16)
deriving DecidableEq, Repr

/-- The count operand: `n = zext(opnd)`, no scaling and no sign (R92). -/
def countOperand (w : Word32) : Nat := (opndField w).toNat

/-- The byte operand, for a command that needs `opnd[23:8] = 0` (R92, R94). -/
def byteOperand (w : Word32) : Except DecodeError Byte :=
  if zeroField w = 0 then .ok (byteField w) else .error (.byteOperand (zeroField w))

/-- The decoder (R93, R94): a command, or the reason the word is reserved. -/
def decode (w : Word32) : Except DecodeError Instr :=
  if opField w = 0x01 then
    if opndField w = 0 then .ok .init else .error (.initOperand (opndField w))
  else if opField w = 0x02 then .ok (.read (countOperand w))
  else if opField w = 0x03 then .ok (.encd (countOperand w))
  else if opField w = 0x04 then .ok (.encp (countOperand w))
  else if opField w = 0x05 then (byteOperand w).map .rev
  else if opField w = 0x06 then (byteOperand w).map .norm
  else .error (.reservedOpcode (opField w))

/-- `word = op ++ opnd` (R91). -/
def commandWord (op : BitVec 8) (opnd : BitVec 24) : Word32 := op ++ opnd

/-- The `op` column of R93. -/
def Instr.opcode : Instr → BitVec 8
  | .init   => 0x01
  | .read _ => 0x02
  | .encd _ => 0x03
  | .encp _ => 0x04
  | .rev _  => 0x05
  | .norm _ => 0x06

/-- The `opnd` column of R93. -/
def Instr.operand : Instr → BitVec 24
  | .init   => 0
  | .read n => BitVec.ofNat 24 n
  | .encd n => BitVec.ofNat 24 n
  | .encp n => BitVec.ofNat 24 n
  | .rev b  => b.setWidth 24
  | .norm b => b.setWidth 24

/-- The encoder: the command word of a well-formed command (R91, R93). -/
def encode (i : Instr) : Word32 := commandWord i.opcode i.operand

/-- One row of the opcode table as R93 gives it: a word `w` is this command exactly when `w & mask == match`. -/
structure OpcodeRow where
  pattern : Word32
  mask    : Word32
deriving DecidableEq, Repr

/-- The word is of this row. -/
def OpcodeRow.holds (r : OpcodeRow) (w : Word32) : Bool := w &&& r.mask == r.pattern

/-- The `match` and `mask` columns of R93, in its order. -/
def opcodeRows : List OpcodeRow :=
  [ { pattern := 0x01000000, mask := 0xFFFFFFFF }, { pattern := 0x02000000, mask := 0xFF000000 },
    { pattern := 0x03000000, mask := 0xFF000000 }, { pattern := 0x04000000, mask := 0xFF000000 },
    { pattern := 0x05000000, mask := 0xFFFFFF00 }, { pattern := 0x06000000, mask := 0xFFFFFF00 } ]

/-- The word made of the low `nbits` bits of `w`, every other bit 0. A command word is one 32-bit value written whole to
`CMD` (R90), so it has no byte order; its bits are numbered as the opcode table numbers them (R91). -/
def tableWord (nbits w : Nat) : Word32 := BitVec.ofNat 32 (w % 2 ^ nbits)

/-- What the decoder reads from the instruction whose bits are `w`, numbered as the opcode table numbers them. -/
def decodeTableWord (nbits w : Nat) : Option Instr := (decode (tableWord nbits w)).toOption

end Sys2Proof
end

