-- ==== Sys2Proof/Machine/State.lean ====
section
/-! DEFINITION. The state as plain data: the core's registers and memories (10_state.md R20), and the three agents
around it, each a record of its own: the byte source (R50), the host (47_host_sequence.md R180, 30_encoding.md R96) and
the PCM sink (R186). `NCH` and `TABLE` are constants of the hardware and have no field (R28, R36); the command word is
not state (R20). Also the reasons a step can stop, and the state right after reset. -/

namespace Sys2Proof.Machine

/-- A memory: the bytes written since reset, by address, the addresses strictly rising. An unlisted address reads as no
value; the access operations answer a free byte for it (R62, log 4). -/
abbrev Memory := List Host.Cell

/-- The canonical form: addresses strictly rising. Every listed byte differs from what an unlisted address reads as,
which is no value. -/
abbrev Memory.wf (m : Memory) : Prop := m.Pairwise fun x y => x.1 < y.1

/-- The registers of R30, in its order, `NCH` and `CMD` apart, which hold nothing (log 12). -/
structure Regs where
  /-- `CFG_SRATE`, number 1 (R25). -/
  cfgSrate  : Word32
  /-- `CFG_LSBF`, number 2 (R26). -/
  cfgLsbf   : Bool
  /-- `CFG_TOTAL`, number 3 (R27). -/
  cfgTotal  : Word64
  /-- `CFG_BLKSZ`, number 4 (R29). -/
  cfgBlksz  : Word32
  /-- `FMT_SRATE`, number 5 (R25). -/
  fmtSrate  : Word32
  /-- `FMT_LSBF`, number 6 (R26). -/
  fmtLsbf   : Bool
  /-- `FMT_TOTAL`, number 7 (R27). -/
  fmtTotal  : Word64
  /-- `RD_BLKSZ`, number 8 (R29). -/
  rdBlksz   : Word32
  /-- `RD_FILLED`, number 9 (R29). -/
  rdFilled  : Word32
  /-- `RD_POS`, number 10 (R29). -/
  rdPos     : Word32
  /-- `RD_EMITTED`, number 11 (R29). -/
  rdEmitted : Word64
  /-- `RESULT`, number 13 (R34). -/
  result    : Word32
  /-- `STATUS.ERR`, bits 7:0 of number 14; bits 31:8 read as 0 (R35). -/
  statusErr : BitVec 8
deriving DecidableEq, Repr

/-- What the source does with its next request, beyond the reference behaviour (R66, R141, log 6). -/
inductive SourceAnswer where
  /-- It yields at most this many bytes: 0 is an I/O error, a small number a short answer. -/
  | upTo (limit : Nat)
  /-- It never answers: "no timeouts are enforced". -/
  | never
deriving DecidableEq, Repr

/-- The byte source (R50, R66, R67, R141; log 6). -/
structure Source where
  /-- The stream `S`, as far as it is laid down. -/
  stream     : List Byte
  /-- What follows the bytes laid down: nothing, or without end the free bytes of this number (U10). -/
  more       : Option Nat
  /-- The cursor `p`. -/
  cursor     : Nat
  /-- What the source does with its next requests. -/
  answers    : List SourceAnswer
  /-- What it does with every request after those: all it can, as R67 says, or at most this many bytes. -/
  thereafter : Option Nat
  /-- A parse has failed on it (R175). -/
  discarded  : Bool
  /-- The host's word that the stream has two channels and that the host has put the source at its first raw sample byte
  (R191). No bytes show it; a parse that succeeds grants it (R171, R174; log 25). -/
  fit        : Bool
deriving DecidableEq, Repr

/-- Whether the source serves a stream (R191): no `INIT` has made one active since reset, one has, or the host has touched
the source since. It is the model's record of a host duty, no state of the block (log 25). -/
inductive StreamUse where
  | idle
  | inUse
  | touched
deriving DecidableEq, Repr

/-- The host handles the source: with a stream in use that breaks the duty of R191, and it stays broken. -/
def StreamUse.touch : StreamUse → StreamUse
  | .idle => .idle
  | .inUse => .touched
  | .touched => .touched

/-- The memories the host can reach (R38, R73). `BUF` is not one of them: the reader alone accesses it (R37, R52). -/
inductive HostSpace where
  | ch (c : Fin 2)
  | out
deriving DecidableEq, Repr

/-- The space a host action names. -/
def HostSpace.space : HostSpace → Space
  | .ch c => .ch c
  | .out  => .out

/-- Why the container parser fails: the first bad field or a short read (R174), in the order of R173. -/
inductive ParseError where
  | shortRead
  | topMagic
  | topSize
  | formatMagic
  | formatVersion
  | formatId
  | channelType
  | channelCount
  | samplingRate
  | bitsPerSample
  | formatSize
  | dataMagic
  | dataSize
deriving DecidableEq, Repr

/-- How the host's run ends: success or one of the errors of R202. -/
inductive RunOutcome where
  | success
  | formatError (e : ParseError)
  | sinkNegotiationError
  | sinkWriteError
  | framingError
deriving DecidableEq, Repr

/-- The playback loop's state machine (R180). -/
inductive Phase where
  | init
  | negotiating
  | streaming
  | terminated (o : RunOutcome)
deriving DecidableEq, Repr

/-- The actions of a host script (R96), with the host procedures of 47_host_sequence.md that are single actions of the
playback loop. A command is a write of its word to `CMD`, register 12 (R90). -/
inductive HostAction where
  /-- `WR name, value`: write a register by number (R30). -/
  | wr (reg : Nat) (value : Word64)
  /-- `RD name`, the value shown (R30). -/
  | rd (reg : Nat)
  /-- `RD RESULT -> r` (R97). -/
  | rdResultToR
  /-- A command by its mnemonic: write the matching command word to `CMD` (R96). -/
  | command (i : Instr)
  /-- `LD space, addr, bytes`. -/
  | ld (sp : HostSpace) (addr : Nat) (bytes : List Byte)
  /-- `ST space, addr, count`. -/
  | st (sp : HostSpace) (addr count : Nat)
  /-- `SINK count`. -/
  | sink (count : Nat)
  /-- `ENCD r`, the count taken from the host variable (R97). -/
  | encdR
  /-- `SINK 2*r` (R97). -/
  | sinkR
  /-- `L:`. -/
  | label (l : Nat)
  /-- `goto L`. -/
  | goto (l : Nat)
  /-- `if RESULT == 0 goto L` (R96). -/
  | gotoIfResultZero (l : Nat)
  /-- `if r == 0 goto L` (R97). -/
  | gotoIfRZero (l : Nat)
  /-- The host puts another source in place of the present one (R50, program P4; log 23), and says whether it is fit: two
  channels, at its first raw sample byte (R191, log 25). -/
  | attach (stream : List Byte) (more : Option Nat) (answers : List SourceAnswer) (thereafter : Option Nat) (fit : Bool)
  /-- The host procedure `open`, in phase `Init` (R171, R173, R181). -/
  | openContainer
  /-- The end of phase `Init`, after `INIT` (R181). -/
  | configured
  /-- Phase `Negotiating` (R183). -/
  | negotiate
  /-- `SINK 2*r` as `writeFrames(OUT, r/4)`, with its check, in phase `Streaming` (R184). -/
  | writeFramesR
  /-- Terminate with FramingError if the last command failed so (R202). -/
  | checkErr
  /-- `phase <- Terminated` (R184, R185). -/
  | terminate (o : RunOutcome)
  /-- The reset event, between two commands (R230, R231). -/
  | resetCore
deriving DecidableEq, Repr

/-- What the host acquires and must release: "byte source handle, sink handle, heap buffers" (R185). -/
inductive Handle where
  | source
  | buffers
  | sink
deriving DecidableEq, Repr

/-- The host (R13). -/
structure Agent where
  /-- Its script, for the labels (R96). -/
  script   : List HostAction
  /-- What of the script is still to do. -/
  todo     : List HostAction
  /-- Its variable `r`, the value last read by `RD RESULT -> r` (R97). -/
  r        : Nat
  /-- The value the last `RD` showed (R96; kept by the model, log 26). -/
  shown    : Word64
  /-- The bytes the last `ST` showed (R96; kept by the model, log 26). -/
  seen     : List Byte
  /-- The state of its playback loop (R180). -/
  phase    : Phase
  /-- Its parser's parameters (R8, D34). -/
  profile  : ContainerProfile
  /-- What it has acquired and not released, the last acquired first (R185). -/
  held     : List Handle
  /-- What it has released, in the order of release (R185; kept by the model, log 26). -/
  released : List Handle
deriving DecidableEq, Repr

/-- The configuration the host asks the sink for (R183, R186). -/
structure SinkConfig where
  rate       : Nat
  channels   : Nat
  frameBytes : Nat
  formatTag  : Nat
  periodSize : Nat
deriving DecidableEq, Repr

/-- The PCM sink (R186): its configuration while it is open, the bytes handed to it, and the answers it will give: to
`configure` whether it accepts, to `writeFrames` how many frames it accepts or `none` for an error. With no answer left
it accepts everything (log 17). -/
structure Sink where
  config        : Option SinkConfig
  handed        : List Byte
  configAnswers : List Bool
  writeAnswers  : List (Option Nat)
deriving DecidableEq, Repr

/-- The whole state; of R52's store buffers, reservations, pending interrupts, caches and translation buffers there are
none. `build` carries the open capacities (R8, log 2), `use` records whether the source serves a stream (R191, log 25),
`draws` counts the free bytes drawn (log 5) and `epoch` the reset events (log 4). -/
structure State where
  build : Build
  regs  : Regs
  buf   : Memory
  ch0   : Memory
  ch1   : Memory
  out   : Memory
  src   : Source
  use   : StreamUse
  agent : Agent
  sink  : Sink
  draws : Nat
  epoch : Nat
deriving DecidableEq, Repr

/-- Where the machine stops with no further step. All are safe: the model stops where the hardware hangs or where no
state that a run reaches can be. -/
inductive Fault where
  /-- Raised by `READ` when the source never answers a refill: the command hangs (R141, R249, U10). Safe. -/
  | sourceNeverAnswers
  /-- Raised by `READ` when its loop never ends because the source answers uselessly for ever (R141, R200 (c), log 7).
  Safe. -/
  | readNeverEnds
  /-- Raised by a host access past a memory's end (R60, log 15), and by `READ` where its reader registers point past
  `BUF`, which no run reaches (log 20). Safe. -/
  | noSuchAddress (sp : Space) (addr : Nat)
deriving DecidableEq, Repr

/-- What the spec gives no meaning (R215, and R191 where it is followed, log 25), and the host-script forms its notation gives
none (log 18). All are safe. -/
inductive Refusal where
  /-- Raised by `exec` alone, for an instruction without a meaning yet. Safe. -/
  | notModelled (mnemonic : String)
  /-- Raised by a write of `CMD` with a reserved word (R94, R215). Safe. -/
  | reservedWord (e : DecodeError)
  /-- Raised by an access to a register number above 14 (R30, R215). Safe. -/
  | reservedRegister (reg : Nat)
  /-- Raised by `READ`, `ENCD`, `ENCP` with `n > CH_CAP` (R72, R215). Safe. -/
  | countExceedsChCap (n : Nat)
  /-- Raised by `INIT` with `CFG_BLKSZ > BLKSZ_MAX` (R72, R215). Safe. -/
  | blockExceedsBuf (blksz : Nat)
  /-- Raised by `INIT` and `READ` on a source the parser failed on (R175, R215). Safe. -/
  | sourceDiscarded
  /-- Raised by `INIT` on a source that is not fit, where R191 is followed (`Build.strictDuties`, log 25). Safe. -/
  | sourceUnfit
  /-- Raised by `READ` when it would take bytes from a source the host has touched since the stream's `INIT`, where R191 is
  followed (`Build.strictDuties`, log 25). Safe. -/
  | sourceTouched
  /-- Raised by a script line whose command no word encodes, its count being 2^24 or more (R92, R96, log 18). Safe. -/
  | operandTooWide (i : Instr)
  /-- Raised by a jump to a label the script does not hold (R96, log 18). Safe. -/
  | noSuchLabel (l : Nat)
  /-- Raised by a step of the playback loop in a phase that has no such transition (R180, log 18). Safe. -/
  | wrongPhase (p : Phase)
deriving DecidableEq, Repr

/-- Every register at the reset value of R30 and R40. -/
def Regs.reset : Regs :=
  { cfgSrate := 0, cfgLsbf := false, cfgTotal := 0, cfgBlksz := 0, fmtSrate := 0, fmtLsbf := false, fmtTotal := 0,
    rdBlksz := 0, rdFilled := 0, rdPos := 0, rdEmitted := 0, result := 0, statusErr := 0 }

/-- A source with nothing in it, where the spec names none (DESIGN CHOICE, log 9). -/
def Source.detached : Source :=
  { stream := [], more := none, cursor := 0, answers := [], thereafter := none, discarded := false, fit := true }

/-- A host that has done nothing and has nothing to do: `phase` starts at `Init` (R180; log 1, log 9). -/
def Agent.idle : Agent :=
  { script := [], todo := [], r := 0, shown := 0, seen := [], phase := .init, profile := ContainerProfile.dsf,
    held := [], released := [] }

/-- A sink that has not been opened (log 9). -/
def Sink.closed : Sink := { config := .none, handed := [], configAnswers := [], writeAnswers := [] }

/-- The machine right after reset: the registers as R40 says, every memory byte unspecified (R40, R62). -/
def State.reset : State :=
  { build := Build.largest, regs := Regs.reset, buf := [], ch0 := [], ch1 := [], out := [], src := Source.detached,
    use := .idle, agent := Agent.idle, sink := Sink.closed, draws := 0, epoch := 0 }

end Sys2Proof.Machine
end

