-- ==== Sys2Proof/Machine/Ops.lean ====
section
/-! DEFINITION. The named operations over memories, registers and the source: one home for byte access (20_memory.md),
for the host's register numbers (10_state.md R30), for `SrcRead` (R66), for the free bytes (R12), for the machine's one
exception, FramingError (60_exceptions.md R201, R206), and for the reset event (70_reset_and_hazards.md R230). -/

namespace Sys2Proof.Machine

/-- The byte listed at an address, if one has been written there. -/
def Memory.get? : Memory → Nat → Option Byte
  | [], _ => none
  | (x, v) :: rest, a => if a = x then some v else Memory.get? rest a

/-- Write one byte, keeping the addresses strictly rising (R61, R62). -/
def Memory.write : Memory → Nat → Byte → Memory
  | [], a, b => [(a, b)]
  | (x, v) :: rest, a, b =>
    if a < x then (a, b) :: (x, v) :: rest
    else if a = x then (a, b) :: rest
    else (x, v) :: Memory.write rest a b

/-- Write consecutive bytes, the first at `a`: `MemWrite(space, a, n, v)` (R12). -/
def Memory.writeList : Memory → Nat → List Byte → Memory
  | m, _, [] => m
  | m, a, b :: bs => Memory.writeList (m.write a b) (a + 1) bs

/-- The memory behind a space name (R60). -/
def State.mem (s : State) : Space → Memory
  | .buf  => s.buf
  | .ch 0 => s.ch0
  | .ch 1 => s.ch1
  | .out  => s.out

/-- Replace one memory; the spaces are disjoint, so the others stay (R71). -/
def State.setMem (s : State) (sp : Space) (m : Memory) : State :=
  match sp with
  | .buf  => { s with buf := m }
  | .ch 0 => { s with ch0 := m }
  | .ch 1 => { s with ch1 := m }
  | .out  => { s with out := m }

/-- One byte of a memory: the last value written to it, or a free value if none was (R62, R74, log 4). -/
def State.readByte (s : State) (sp : Space) (a : Nat) : Byte :=
  ((s.mem sp).get? a).getD (Config.unwrittenByte s.epoch sp a)

/-- `MemRead(space, a, n)`, lowest address first (R12). -/
def State.readBytes (s : State) (sp : Space) (a n : Nat) : List Byte :=
  (List.range n).map fun k => s.readByte sp (a + k)

/-- `MemWrite(space, a, ...)` (R12). -/
def State.writeBytes (s : State) (sp : Space) (a : Nat) (bs : List Byte) : State :=
  s.setMem sp ((s.mem sp).writeList a bs)

/-- Bytes `a .. a+n-1` exist in the space; no byte is asked for when `n = 0` (R60). -/
def State.inRange (s : State) (sp : Space) (a n : Nat) : Bool :=
  n == 0 || a + n ≤ s.build.size sp

/-- A 1-bit register read as a 32-bit value: the flag is bit 0, bits 31:1 read as 0 (R26). -/
def flagWord (b : Bool) : Word64 := if b then 1 else 0

/-- The host's register read by number, as a whole value (R30): `NCH` is hard-wired (R28), `CMD` reads as 0, numbers 15
and above have no meaning. -/
def State.readReg (s : State) (reg : Nat) : Option Word64 :=
  match reg with
  | 0  => some 2
  | 1  => some (s.regs.cfgSrate.setWidth 64)
  | 2  => some (flagWord s.regs.cfgLsbf)
  | 3  => some s.regs.cfgTotal
  | 4  => some (s.regs.cfgBlksz.setWidth 64)
  | 5  => some (s.regs.fmtSrate.setWidth 64)
  | 6  => some (flagWord s.regs.fmtLsbf)
  | 7  => some s.regs.fmtTotal
  | 8  => some (s.regs.rdBlksz.setWidth 64)
  | 9  => some (s.regs.rdFilled.setWidth 64)
  | 10 => some (s.regs.rdPos.setWidth 64)
  | 11 => some s.regs.rdEmitted
  | 12 => some 0
  | 13 => some (s.regs.result.setWidth 64)
  | 14 => some (s.regs.statusErr.setWidth 64)
  | _  => none

/-- The host's register write by number, `CMD` apart (R30): only the staging registers take it; a write of a read-only
register has no effect. A register narrower than the value takes its low bits (R26, log 11). -/
def State.writeReg (s : State) (reg : Nat) (v : Word64) : State :=
  match reg with
  | 1 => { s with regs := { s.regs with cfgSrate := v.setWidth 32 } }
  | 2 => { s with regs := { s.regs with cfgLsbf := v.getLsbD 0 } }
  | 3 => { s with regs := { s.regs with cfgTotal := v } }
  | 4 => { s with regs := { s.regs with cfgBlksz := v.setWidth 32 } }
  | _ => s

/-- How many of the bytes laid down the source has not yielded yet. -/
def Source.remaining (src : Source) : Nat := src.stream.length - src.cursor

/-- The bytes from position `pos` of the stream on, `n` of them or what there is: those laid down, then those of a stream
that never ends (R67, U10, log 6). -/
def Source.bytesAt (src : Source) (pos n : Nat) : List Byte :=
  let laid := (src.stream.drop pos).take n
  match src.more with
  | none => laid
  | some k => laid ++ (List.range (n - laid.length)).map fun j => Config.endlessByte k (pos + laid.length + j)

/-- The next bytes of the stream, at most `limit`, and the cursor past them (R66, R67). -/
def Source.yield (src : Source) (limit : Nat) : List Byte × Source :=
  let bytes := src.bytesAt src.cursor limit
  (bytes, { src with cursor := src.cursor + bytes.length })

/-- How many bytes the source is willing to give of the `k` asked for, when no answer is laid down (log 6). -/
def Source.willing (src : Source) (k : Nat) : Nat :=
  match src.thereafter with
  | none => k
  | some limit => min k limit

/-- `SrcRead(K)` (R66): the bytes the source yields and the source after it, or `none` if it never answers. `SrcRead(0)`
returns the empty list and leaves the source alone. With nothing else laid down it is the reference source of R67. -/
def Source.read (src : Source) (k : Nat) : Option (List Byte × Source) :=
  if k = 0 then some ([], src)
  else match src.answers with
    | [] => some (src.yield (src.willing k))
    | .upTo limit :: rest => some ({ src with answers := rest }.yield (min k limit))
    | .never :: _ => none

/-- The host releases its handle of the source (R185): nothing more comes from it, as after an I/O error (R203, log 26). -/
def Source.close (src : Source) : Source := { src with stream := [], more := none, answers := [], thereafter := none }

/-- `n` free bytes, none drawn before (R12, log 5). -/
def State.freeBytes (s : State) (n : Nat) : List Byte :=
  (List.range n).map fun k => Config.freeByte (s.draws + k)

/-- `RESULT <- v` and `STATUS.ERR <- e`: how every command ends (R34, R35). -/
def State.setOutcome (s : State) (v : Nat) (e : BitVec 8) : State :=
  { s with regs := { s.regs with result := BitVec.ofNat 32 v, statusErr := e } }

/-- `raise FramingError`, the machine's one exception (R201): `STATUS.ERR <- 1`, `RESULT <- 0` and nothing else. No state
is saved and no control goes anywhere (R206), and there is no return from it (R207). -/
def State.raiseFramingError (s : State) : State := s.setOutcome 0 1

/-- The reset event on any state (R230, R231): registers at their reset values, every memory byte unspecified anew, no
stream in use, the source, the host and the sink as they were (log 8, log 25). -/
def State.resetCore (s : State) : State :=
  { s with regs := Regs.reset, buf := [], ch0 := [], ch1 := [], out := [], use := .idle, epoch := s.epoch + 1 }

end Sys2Proof.Machine
end

