-- ==== Sys2Proof/Machine/Container.lean ====
section
/-! DEFINITION. The host's container parser (47_host_sequence.md R171 to R176): the layout of R172 read in the order of
R173, every check of R174 where its field is read, so that the first bad field decides the failure; the two failures of
the model's own, a chunk size too small to skip by, stand where R173 skips (log 16). The core never
sees any of it; it produces the values the host stages and leaves the source's cursor at the first raw sample byte. -/

namespace Sys2Proof.Machine

/-- What `open` yields: the fields of StreamFormat (R23), and the block size. -/
structure StreamFormat where
  samplingRate : Nat
  numChannels  : Nat
  totalSamples : Nat
  isLsbFirst   : Bool
  blockSize    : Nat
deriving DecidableEq, Repr

/-- "all integers little-endian" (R63, R172). -/
def littleEndian (bytes : List Byte) : Nat := bytes.foldr (fun b acc => b.toNat + 256 * acc) 0

/-- The integer in the `width` bytes at offset `at_` of the source; a short read is a failure (R174). -/
def field (src : Source) (at_ width : Nat) : Except ParseError Nat :=
  let bytes := src.bytesAt at_ width
  if bytes.length = width then .ok (littleEndian bytes) else .error .shortRead

/-- One check of R174. -/
def need (ok : Bool) (e : ParseError) : Except ParseError Unit := if ok then .ok () else .error e

/-- `DATA_SIZE_OK(size)`: the source does not say what the data-chunk size is checked against, so which sizes it rejects
is a parameter of the host (R172, D34, log 16). -/
def dataSizeOk (p : ContainerProfile) (size : Nat) : Bool := !p.rejectedSizes.contains size

/-- The format fields at their offsets from the format chunk, in order (R173 (3)). -/
def parseFormat (src : Source) (fmt : Nat) : Except ParseError StreamFormat := do
  let version ← field src (fmt + 12) 4
  need (version == 1) .formatVersion
  let formatId ← field src (fmt + 16) 4
  need (formatId == 0) .formatId
  let channelType ← field src (fmt + 20) 4
  need (channelType == 2) .channelType
  let channels ← field src (fmt + 24) 4
  need (channels == 2) .channelCount
  let rate ← field src (fmt + 28) 4
  need (rate == 2822400 || rate == 5644800) .samplingRate
  let bits ← field src (fmt + 32) 4
  need (bits == 1 || bits == 8) .bitsPerSample
  let total ← field src (fmt + 36) 8
  let blockSize ← field src (fmt + 44) 4
  return { samplingRate := rate, numChannels := channels, totalSamples := total, isLsbFirst := bits == 1,
           blockSize := blockSize }

/-- `open` (R171, R173) on a source whose cursor is at `top`: the format and the offset of the first raw sample byte. Each
tag is checked before the size after it is read, so that the first bad field in file order decides (R174, R205). A chunk
size below the bytes already read gives no forward seek and is a failure, found at the seek: `S1 < 12` right after `S1`,
`S2 < 48` only after the format fields, although `S2` stands before them, so that a bad version is reported first. R172
states no constraint on `S2`, so R205 orders no check of it. DESIGN CHOICE (log 16). -/
def parseContainer (p : ContainerProfile) (src : Source) (top : Nat) : Except ParseError (StreamFormat × Nat) := do
  let magicA ← field src top 4
  need (magicA == p.tagA.toNat) .topMagic
  let s1 ← field src (top + 4) 8
  need (12 ≤ s1) .topSize
  let fmt := top + s1
  let magicB ← field src fmt 4
  need (magicB == p.tagB.toNat) .formatMagic
  let s2 ← field src (fmt + 4) 8
  let format ← parseFormat src fmt
  need (48 ≤ s2) .formatSize
  let data := fmt + s2
  let magicC ← field src data 4
  need (magicC == p.tagC.toNat) .dataMagic
  let s3 ← field src (data + 4) 8
  need (dataSizeOk p s3) .dataSize
  return (format, data + 12)

end Sys2Proof.Machine
end

