-- ==== Sys2Proof/Machine/Flags.lean ====
section
/-! DEFINITION. The one flag of the block, `STATUS.ERR` (10_state.md R35), and the outcome register beside it: every
command ends in one of the two ways of 60_exceptions.md R200 (a) and (b). No command reads the flag. -/

namespace Sys2Proof.Machine

/-- Completed (R200 (a)): `STATUS.ERR <- 0` and `RESULT <- v`. -/
def State.complete (s : State) (v : Nat) : State := s.setOutcome v 0

/-- What `READ` reports of `ret` bytes served (R136): with `e = RD_EMITTED + 8 * ret`, exact, the count is cut by
`(e - FMT_TOTAL) / 8` when `e` exceeds `FMT_TOTAL`. -/
def Regs.reported (r : Regs) (ret : Nat) : Nat :=
  let e := r.rdEmitted.toNat + ret * 8
  if r.fmtTotal.toNat < e then ret - (e - r.fmtTotal.toNat) / 8 else ret

/-- What `RD_EMITTED` becomes (R136): `e`, clamped to `FMT_TOTAL`. -/
def Regs.emittedAfter (r : Regs) (ret : Nat) : Nat :=
  min (r.rdEmitted.toNat + ret * 8) r.fmtTotal.toNat

end Sys2Proof.Machine
end

