-- ==== Sys2Proof/Machine/BitReverse.lean ====
section
/-! DEFINITION. BRT, the bit-order reverser: `REV` and `NORM` (40_bit_reverse.md R124, R125). -/

namespace Sys2Proof.Machine

/-- `REV b` (R124): `RESULT <- zext_32(TABLE[b])`, `STATUS.ERR <- 0`; it ignores `FMT_LSBF`. -/
def execRev (b : Byte) (s : State) : Host.Outcome State Fault Refusal :=
  .next (s.complete (Rom.lookup b).toNat)

/-- `NORM b` (R125): `RESULT <- zext_32(norm(FMT_LSBF, b))`, `STATUS.ERR <- 0`. -/
def execNorm (b : Byte) (s : State) : Host.Outcome State Fault Refusal :=
  .next (s.complete (norm s.regs.fmtLsbf b).toNat)

end Sys2Proof.Machine
end

