-- ==== Sys2Proof/Machine/BlockReader.lean ====
section
/-! DEFINITION. SBR, the streaming block buffer and de-interleaver: `INIT` and `READ` (41_block_reader.md R131, R132).
The steps of `READ` are definitions of their own, as the spec gives each a rule: the refill (R133), the copy (R134), the
loop around them with its early return (R132, R135), and the truncation (R136). -/

namespace Sys2Proof.Machine

/-- The registers `INIT` leaves (R131): active format and block size from the staging registers, an empty reader. -/
def Regs.activate (r : Regs) : Regs :=
  { r with fmtSrate := r.cfgSrate, fmtLsbf := r.cfgLsbf, fmtTotal := r.cfgTotal, rdBlksz := r.cfgBlksz,
           rdFilled := 0, rdPos := 0, rdEmitted := 0 }

/-- The host duty `CFG_BLKSZ <= BLKSZ_MAX` (R72): under it `INIT` runs, else the model refuses it (R215). -/
def State.withBlock (s : State) (run : Host.Outcome State Fault Refusal) : Host.Outcome State Fault Refusal :=
  if s.regs.cfgBlksz.toNat ≤ s.build.blkszMax then run else .refused (.blockExceedsBuf s.regs.cfgBlksz.toNat)

/-- `INIT` (R131). Host duties: no parse has failed on the source (R175), `CFG_BLKSZ <= BLKSZ_MAX` (R72), and the source is
fit (R131, R191; log 25). -/
def execInit (s : State) : Host.Outcome State Fault Refusal :=
  s.withSource <| s.withBlock <| s.withDuty s.src.fit .sourceUnfit <|
    .next ({ s with regs := s.regs.activate, use := .inUse }.complete 0)

/-- What one refill comes to. -/
inductive Refill where
  /-- The source yielded bytes; they are in `BUF`. -/
  | data (s : State)
  /-- The source yielded none: end of stream or an I/O error (R135). -/
  | empty (s : State)
  /-- No step exists. -/
  | stuck (f : Fault)

/-- The state a refill of `bytes` leaves (R133): the `r` bytes at `BUF[0 .. r-1]`, the rest of `BUF` as it was,
`RD_FILLED <- r / N_CH` by floor division, `RD_POS <- 0`. -/
def State.refilled (s : State) (bytes : List Byte) (src : Source) : State :=
  { s with
    src := src
    regs := { s.regs with rdFilled := BitVec.ofNat 32 (bytes.length / 2), rdPos := 0 } }.writeBytes .buf 0 bytes

/-- The refill step (R133): one `SrcRead(RD_BLKSZ * N_CH)`, and what comes of its answer. -/
def State.refill (s : State) : Refill :=
  match s.src.read (2 * s.regs.rdBlksz.toNat) with
  | none => .stuck .sourceNeverAnswers
  | some (bytes, src) =>
    if bytes = [] then .empty { s with src := src }
    else if s.inRange .buf 0 bytes.length then .data (s.refilled bytes src)
    else .stuck (.noSuchAddress .buf (bytes.length - 1))

/-- The test at the top of every iteration (R133): refill when `RD_POS == RD_FILLED`. -/
def State.refillIfExhausted (s : State) : Refill :=
  if s.regs.rdPos = s.regs.rdFilled then s.refill else .data s

/-- Where channel `c`'s unread bytes begin in `BUF`: `c * RD_BLKSZ + RD_POS` (R70, R134). -/
def State.unread (s : State) (c : Fin 2) : Nat := c.val * s.regs.rdBlksz.toNat + s.regs.rdPos.toNat

/-- The copy step (R134): `m` bytes of each channel's region of `BUF` to `CH[c][ret ..]`, then `RD_POS <- RD_POS + m`.
`BUF` and the two `CH` are disjoint, so the order of the byte accesses does not show (R68, R71). -/
def State.copyOut (s : State) (ret m : Nat) : State :=
  let s1 := s.writeBytes (.ch 0) ret (s.readBytes .buf (s.unread 0) m)
  let s2 := s1.writeBytes (.ch 1) ret (s.readBytes .buf (s.unread 1) m)
  { s2 with regs := { s.regs with rdPos := BitVec.ofNat 32 (s.regs.rdPos.toNat + m) } }

/-- How the loop of `READ` ends. -/
inductive ReadEnd where
  /-- The request is served: `ret` bytes per channel copied. -/
  | served (ret : Nat) (s : State)
  /-- A refill yielded nothing (R135). -/
  | empty (s : State)
  /-- No step exists. -/
  | stuck (f : Fault)

/-- The bytes the copy step takes: `m = min(rem, RD_FILLED - RD_POS)` (R134). -/
def State.copyCount (s : State) (rem : Nat) : Nat := min rem (s.regs.rdFilled.toNat - s.regs.rdPos.toNat)

/-- The loop of R132, `while rem > 0`, with `ret` bytes per channel copied so far. `fuel` bounds the iterations: by
R141 an iteration lowers `rem`, or uses up an answer or a byte laid down for the source, or is one of an endless source
that answers one byte each time, and then the loop never ends (log 7). -/
def readLoop : Nat → Nat → Nat → State → ReadEnd
  | _, 0, ret, s => .served ret s
  | 0, _ + 1, _, _ => .stuck .readNeverEnds
  | fuel + 1, rem + 1, ret, s =>
    match s.refillIfExhausted with
    | .stuck f => .stuck f
    | .empty s1 => .empty s1
    | .data s1 =>
      let m := s1.copyCount (rem + 1)
      if s1.inRange .buf (s1.unread 1) m then readLoop fuel (rem + 1 - m) (ret + m) (s1.copyOut ret m)
      else .stuck (.noSuchAddress .buf (s1.unread 1 + m - 1))

/-- The truncation step and the end of `READ` (R136): `RD_EMITTED` and `RESULT` only. -/
def State.report (s : State) (ret : Nat) : State :=
  { s with regs := { s.regs with rdEmitted := BitVec.ofNat 64 (s.regs.emittedAfter ret) } }.complete
    (s.regs.reported ret)

/-- The answers and bytes laid down for the source: what bounds the iterations that serve nothing (R141). -/
def Source.budget (src : Source) : Nat := src.answers.length + src.remaining

/-- Enough iterations for a `READ n` that ends (R141). -/
def State.readFuel (s : State) (n : Nat) : Nat := n + s.src.budget

/-- `READ n` (R132). Host duties: no parse has failed on the source (R175), `n <= CH_CAP` (R72), and the host has not
touched the source of the stream (R191; log 25). A refill that yields nothing ends the command at once with
`RESULT = 0`, whatever was copied before it (R135). -/
def execRead (n : Nat) (s : State) : Host.Outcome State Fault Refusal :=
  s.withSource <| s.withCount n <| s.withDuty (s.sourceKept n) .sourceTouched <|
    match readLoop (s.readFuel n) n 0 s with
    | .served ret t => .next (t.report ret)
    | .empty t => .next (t.complete 0)
    | .stuck f => .fault f

end Sys2Proof.Machine
end

