-- ==== Sys2Proof/Machine/DirectInterleave.lean ====
section
/-! DEFINITION. MUX, the audio frame multiplexer: `ENCD` (42_direct_interleave.md R151, R152; the frame is
30_encoding.md R98). -/

namespace Sys2Proof.Machine

/-- The direct frame of group `g` (R98): four bytes of channel 0, then four of channel 1, each normalised. -/
def State.directFrame (s : State) (g : Nat) : List Byte :=
  [s.normByte 0 (4 * g), s.normByte 0 (4 * g + 1), s.normByte 0 (4 * g + 2), s.normByte 0 (4 * g + 3),
   s.normByte 1 (4 * g), s.normByte 1 (4 * g + 1), s.normByte 1 (4 * g + 2), s.normByte 1 (4 * g + 3)]

/-- The frames of the `n / 4` whole groups, in order (R151). -/
def State.directFrames (s : State) (n : Nat) : List Byte := (List.range (n / 4)).flatMap s.directFrame

/-- How many bytes of the output stay `any`: none when `n` is a multiple of 4 (R152). -/
def directTail (n : Nat) : Nat := 2 * n - 8 * (n / 4)

/-- The state `ENCD n` leaves (R151): the frames of the whole groups at `OUT[0 ..]`, free bytes up to `OUT[2n-1]`
(R152), `RESULT <- 2n`, `STATUS.ERR <- 0`. -/
def State.afterEncd (s : State) (n : Nat) : State :=
  { s.writeBytes .out 0 (s.directFrames n ++ s.freeBytes (directTail n)) with
    draws := s.draws + directTail n }.complete (2 * n)

/-- `ENCD n` (R151). Host duty `n <= CH_CAP`; then `OUT[0 .. 2n-1]` exists, because `OUT_CAP >= 3 * CH_CAP` (R72). -/
def execEncd (n : Nat) (s : State) : Host.Outcome State Fault Refusal := s.withCount n (.next (s.afterEncd n))

end Sys2Proof.Machine
end

