-- ==== Sys2Proof/Machine/DopFrame.lean ====
section
/-! DEFINITION. DOP, the DSD-over-PCM frame encoder: `ENCP` (43_dop_frame.md R161, R162; the frame is 30_encoding.md
R99). The marker is the same in every frame and is not bit-reversed (R163). -/

namespace Sys2Proof.Machine

/-- The DoP frame of group `g`, channel `c` (R99): the marker, then the group's two bytes, normalised. -/
def State.dopFrame (s : State) (g : Nat) (c : Fin 2) : List Byte :=
  [Config.dopMarker, s.normByte c (2 * g), s.normByte c (2 * g + 1)]

/-- The frames of the `n / 2` groups, group-major and channel-minor (R99, R161). -/
def State.dopFrames (s : State) (n : Nat) : List Byte :=
  (List.range (n / 2)).flatMap fun g => s.dopFrame g 0 ++ s.dopFrame g 1

/-- The state `ENCP n` leaves for an even `n` (R161): the frames at `OUT[0 ..]`, `RESULT <- 3 * N_CH * (n / 2)`,
`STATUS.ERR <- 0`. -/
def State.afterEncp (s : State) (n : Nat) : State :=
  (s.writeBytes .out 0 (s.dopFrames n)).complete (3 * 2 * (n / 2))

/-- `ENCP n` (R161): an odd `n` raises FramingError and does nothing else (R162). Host duty `n <= CH_CAP` first: a call
that breaks it has no meaning, not even that of FramingError (R215, log 24). -/
def execEncp (n : Nat) (s : State) : Host.Outcome State Fault Refusal :=
  s.withCount n (if n % 2 = 1 then .next s.raiseFramingError else .next (s.afterEncp n))

end Sys2Proof.Machine
end

