-- ==== Sys2Proof/Machine/Dispatch.lean ====
section
/-! DEFINITION. One arm per command: each calls its meaning (30_encoding.md R93). -/

namespace Sys2Proof.Machine

def exec (i : Instr) (s : State) : Host.Outcome State Fault Refusal :=
  match i with
  | .init => Sys2Proof.Machine.execInit s
  | .read n => Sys2Proof.Machine.execRead n s
  | .encd n => Sys2Proof.Machine.execEncd n s
  | .encp n => Sys2Proof.Machine.execEncp n s
  | .rev b => Sys2Proof.Machine.execRev b s
  | .norm b => Sys2Proof.Machine.execNorm b s

end Sys2Proof.Machine
end

