-- ==== Sys2Proof/Machine/HostAgent.lean ====
section
/-! DEFINITION. The host agent: its script actions (30_encoding.md R96), the pseudo-actions (R97), the playback loop
(47_host_sequence.md R180 to R185), and `hostAct`, the meaning of one action. A write of `CMD` decodes the word and runs
the command (R90); everything else happens between two commands (R190). -/

namespace Sys2Proof.Machine

/-- The answer of one step. -/
abbrev StepOutcome := Host.Outcome State Fault Refusal

/-- `CMD`, register 12 (R30). -/
def cmdReg : Nat := 12

/-- A write of `CMD` (R90): decode the word, execute the command to completion. A reserved word is refused (R94). -/
def State.issueWord (s : State) (w : Word32) : StepOutcome :=
  match decode w with
  | .ok i => exec i s
  | .error e => .refused (.reservedWord e)

/-- A command written by its mnemonic, `READ n` and the like (R96): the matching word goes to `CMD`. A count that no
operand field holds has no matching word, and the line is refused: DESIGN CHOICE (log 18). -/
def State.issueCommand (s : State) (i : Instr) : StepOutcome :=
  if i.wellFormed then s.issueWord (encode i) else .refused (.operandTooWide i)

/-- `WR` (R30, R96): `CMD` takes the low 32 bits as its word; numbers 15 and above are refused (R215). -/
def State.hostWrite (s : State) (reg : Nat) (v : Word64) : StepOutcome :=
  if 15 ≤ reg then .refused (.reservedRegister reg)
  else if reg = cmdReg then s.issueWord (v.setWidth 32)
  else .next (s.writeReg reg v)

/-- `RD` (R30, R96). "The value read is shown": the model keeps it in `Agent.shown`, DESIGN CHOICE (log 26). The host
variable `r` takes it in `RD RESULT -> r` alone (R97). -/
def State.hostRead (s : State) (reg : Nat) : StepOutcome :=
  match s.readReg reg with
  | some v => .next { s with agent := { s.agent with shown := v } }
  | none => .refused (.reservedRegister reg)

/-- `RD RESULT -> r` (R97): the value read is shown like any other (log 26), and the host variable `r` takes it. -/
def State.hostReadResult (s : State) : State :=
  { s with agent := { s.agent with r := s.regs.result.toNat, shown := s.regs.result.setWidth 64 } }

/-- The host acquires a handle; one it holds already stays where it is (R185, log 26). -/
def Agent.acquire (a : Agent) (h : Handle) : Agent := if h ∈ a.held then a else { a with held := h :: a.held }

/-- The host lets go of all it holds, the last acquired first: "in reverse acquisition order" (R185). -/
def Agent.releaseAll (a : Agent) : Agent := { a with held := [], released := a.released ++ a.held }

/-- Another source in place of the present one, standing at its first byte (R50, log 23). A stream in use has lost its
source (R191). -/
def State.attachSource (s : State) (stream : List Byte) (more : Option Nat) (answers : List SourceAnswer)
    (thereafter : Option Nat) (fit : Bool) : State :=
  { s with
    src := { stream := stream, more := more, cursor := 0, answers := answers, thereafter := thereafter, discarded := false,
             fit := fit }
    use := s.use.touch
    agent := s.agent.acquire .source }

/-- Run an access to bytes `a .. a+n-1` of a space, or fault where they do not all exist (R60, log 15). -/
def State.withRange (s : State) (sp : Space) (a n : Nat) (run : StepOutcome) : StepOutcome :=
  if s.inRange sp a n then run else .fault (.noSuchAddress sp (a + n - 1))

/-- `SINK count` (R96, R186): the first `count` bytes of `OUT` go to the sink. -/
def State.handOver (s : State) (count : Nat) : StepOutcome :=
  s.withRange .out 0 count <|
    .next { s with sink := { s.sink with handed := s.sink.handed ++ s.readBytes .out 0 count } }

/-- The part of a script from a label on, the label's own line left out (R96). Labels belong to the script as a whole, and
the first of two equal ones is meant: DESIGN CHOICE (log 18). -/
def afterLabel (l : Nat) : List HostAction → Option (List HostAction)
  | [] => none
  | .label k :: rest => if k = l then some rest else afterLabel l rest
  | _ :: rest => afterLabel l rest

/-- `goto L` (R96). -/
def State.jump (s : State) (l : Nat) : StepOutcome :=
  match afterLabel l s.agent.script with
  | some rest => .next { s with agent := { s.agent with todo := rest } }
  | none => .refused (.noSuchLabel l)

/-- `phase <- Terminated` (R184, R185): final; the host does nothing more for this stream and releases what it
holds in reverse acquisition order, the sink if it is open and the source with the rest. A phase that is `Terminated`
already stays as it is. -/
def State.finish (s : State) (o : RunOutcome) : State :=
  match s.agent.phase with
  | .terminated _ => s
  | _ => { s with
    src := s.src.close
    agent := { s.agent.releaseAll with phase := .terminated o, todo := [] }
    sink := { s.sink with config := none } }

/-- Run a step of the playback loop in the one phase that has it (R180, log 18). -/
def State.inPhase (s : State) (p : Phase) (run : StepOutcome) : StepOutcome :=
  if s.agent.phase = p then run else .refused (.wrongPhase s.agent.phase)

/-- `OPEN rate, lsbf, total, blksz` (R97, R176). -/
def openScript (rate : Nat) (lsbf : Bool) (total blksz : Nat) : List HostAction :=
  [.wr 1 (BitVec.ofNat 64 rate), .wr 2 (if lsbf then 1 else 0), .wr 3 (BitVec.ofNat 64 total),
   .wr 4 (BitVec.ofNat 64 blksz), .command .init]

/-- The host procedure `open` (R171, R181): on success the cursor is at the first raw sample byte of two channels, the
buffers are allocated (R176), and the host goes on to configure the core; on failure the source is to be discarded, its
cursor anywhere (R175, U1, log 10), and the run is over. -/
def State.openContainer (s : State) : StepOutcome :=
  s.inPhase .init <|
    match parseContainer s.agent.profile s.src s.src.cursor with
    | .ok (f, first) =>
      .next { s with
        src := { s.src with cursor := first, fit := true }
        use := s.use.touch
        agent := { s.agent.acquire .buffers with
          todo := openScript f.samplingRate f.isLsbFirst f.totalSamples f.blockSize ++ .configured :: s.agent.todo } }
    | .error e =>
      .next ({ s with
        src := { s.src with cursor := Config.freePosition s.draws, discarded := true }
        use := s.use.touch
        draws := s.draws + 1 }.finish (.formatError e))

/-- The sink parameters the host computes (R183): rate `FMT_SRATE / 32`, two channels, the 8-byte direct frame. -/
def State.sinkConfig (s : State) : SinkConfig :=
  { rate := s.regs.fmtSrate.toNat / 32, channels := 2, frameBytes := 8, formatTag := Config.sinkFormatTag,
    periodSize := Config.sinkPeriodSize }

/-- `Negotiating` (R183): the sink takes the parameters or the run is over. -/
def State.negotiate (s : State) : StepOutcome :=
  s.inPhase .negotiating <|
    let sink := { s.sink with configAnswers := s.sink.configAnswers.tail }
    if s.sink.configAnswers.headD true then
      .next { s with
        sink := { sink with config := some s.sinkConfig }
        agent := { s.agent.acquire .sink with phase := .streaming } }
    else .next ({ s with sink := sink }.finish .sinkNegotiationError)

/-- The sink's answer to `writeFrames` (R186): `none` is an error. -/
def Sink.accepts (k : Sink) (frames : Nat) : Option Nat := k.writeAnswers.headD (some frames)

/-- `writeFrames(OUT[0 .. 2r-1], r/4)` and the loop's check (R184): fewer frames accepted than submitted, or an error,
is fatal. A sink that answers more frames than it was given does not end the run: R184 names fewer alone, where R202 calls
any mismatch of the count fatal. DESIGN CHOICE (log 17). -/
def State.writeFrames (s : State) : StepOutcome :=
  s.inPhase .streaming <| s.withRange .out 0 (2 * s.agent.r) <|
    let frames := s.agent.r / 4
    let t := { s with sink := { s.sink with
      handed := s.sink.handed ++ s.readBytes .out 0 (2 * s.agent.r)
      writeAnswers := s.sink.writeAnswers.tail } }
    match s.sink.accepts frames with
    | some k => if k < frames then .next (t.finish .sinkWriteError) else .next t
    | none => .next (t.finish .sinkWriteError)

/-- The meaning of one host action, the action itself already taken off the script. R180 to R185 say which transitions the
playback loop makes, and not in which phase a script may set one itself. DESIGN CHOICE (log 27): `terminate o`, the
primitive `phase <- Terminated` of R12, and `checkErr` run in every phase, `terminate` with every outcome, so that a script
can go from `Init` to success; `configured` leaves `Init` whether or not a parse or an `INIT` came before it;
`openContainer`, `configured`, `negotiate` and `writeFramesR` alone ask for their phase. -/
def hostAct (a : HostAction) (s : State) : StepOutcome :=
  match a with
  | .wr reg v => s.hostWrite reg v
  | .rd reg => s.hostRead reg
  | .rdResultToR => .next s.hostReadResult
  | .command i => s.issueCommand i
  | .ld sp addr bytes => s.withRange sp.space addr bytes.length (.next (s.writeBytes sp.space addr bytes))
  | .st sp addr count =>
    s.withRange sp.space addr count (.next { s with agent := { s.agent with seen := s.readBytes sp.space addr count } })
  | .sink count => s.handOver count
  | .encdR => s.issueCommand (.encd s.agent.r)
  | .sinkR => s.handOver (2 * s.agent.r)
  | .label _ => .next s
  | .goto l => s.jump l
  | .gotoIfResultZero l => if s.regs.result = 0 then s.jump l else .next s
  | .gotoIfRZero l => if s.agent.r = 0 then s.jump l else .next s
  | .attach stream more answers thereafter fit => .next (s.attachSource stream more answers thereafter fit)
  | .openContainer => s.openContainer
  | .configured => s.inPhase .init (.next { s with agent := { s.agent with phase := .negotiating } })
  | .negotiate => s.negotiate
  | .writeFramesR => s.writeFrames
  | .checkErr => if s.regs.statusErr = 0 then .next s else .next (s.finish .framingError)
  | .terminate o => .next (s.finish o)
  | .resetCore => .next s.resetCore

/-- `PLAY chunk` (R97). `L` and `END` are the label numbers `l` and `l + 1`: R97 does not say whether each `PLAY` has an `L`
and an `END` of its own, so the script's writer gives them. DESIGN CHOICE (log 18): every `PLAY` of a script has its own
where each gets another `l`, two with the same `l` share the first one's. Any chunk may stand there: program P5a plays 6. -/
def playScript (l chunk : Nat) : List HostAction :=
  [.label l, .command (.read chunk), .rdResultToR, .gotoIfRZero (l + 1), .encdR, .sinkR, .goto l, .label (l + 1)]

/-- The whole pipeline of R170 with the phases of R180: `Init`, `Negotiating`, then the streaming loop of R184 with
`READ_CHUNK = chunk`; there is none for a chunk outside the range R8 and R184 give the parameter. It is a whole script, so
its labels are its own: R184's `L` is 0, and 1 is the line where the run ends (log 18). -/
def pipelineScript (b : Build) (chunk : Nat) : Option (List HostAction) :=
  if b.readChunkOk chunk then
    some [.openContainer, .negotiate, .label 0, .command (.read chunk), .rdResultToR, .gotoIfRZero 1, .encdR,
      .writeFramesR, .goto 0, .label 1, .terminate .success]
  else none

/-- The exit code of the process around the block: 0 on clean termination, 1 on any failure (R187). -/
def RunOutcome.exitCode : RunOutcome → Nat
  | .success => 0
  | _ => 1

end Sys2Proof.Machine
end

