-- ==== Sys2Proof/Machine/Step.lean ====
section
/-! DEFINITION. One step: the host does its next action (00_scope.md R13, R14); a command issued by it runs to
completion within the step. There is no program counter (10_state.md R22): what runs next is the front of the host's
script. With nothing left to do the core is idle and holds its state (60_exceptions.md R214). -/

namespace Sys2Proof.Machine

/-- One step of the machine. -/
def step (s : State) : Host.Outcome State Fault Refusal :=
  match s.agent.todo with
  | [] => .next s
  | a :: rest => hostAct a { s with agent := { s.agent with todo := rest } }

/-- The state whose next host action writes the given command word to `CMD` (log 1). -/
def State.withFetchWord (s : State) (nbits w : Nat) : State :=
  { s with agent := { s.agent with todo := .wr cmdReg ((tableWord nbits w).setWidth 64) :: s.agent.todo } }

end Sys2Proof.Machine
end

