-- ==== Sys2Proof/Safety.lean ====
section
/-! DEFINITION. What claims speak of: the invariants of the machine (10_state.md R31, R32, R35; 20_memory.md R60;
00_scope.md R8), the bytes a series of refills delivers (41_block_reader.md R133, R134, R138), and the bytes a series of
commands reports (R137). -/

namespace Sys2Proof

/-- `READ`, the one command whose result counts bytes served (R34). -/
def Instr.isRead : Instr → Bool
  | .read _ => true
  | _ => false

end Sys2Proof

namespace Sys2Proof.Machine

/-- A memory is in canonical form and holds no byte at or past its size (R60). -/
abbrev Memory.fits (m : Memory) (size : Nat) : Prop := m.wf ∧ ∀ c ∈ m, c.1 < size

/-- "position ≤ filled ≤ block_size" (R31), and the block fits `BUF` (R72). -/
abbrev State.readerOk (s : State) : Prop :=
  s.regs.rdPos.toNat ≤ s.regs.rdFilled.toNat ∧ s.regs.rdFilled.toNat ≤ s.regs.rdBlksz.toNat ∧
    s.regs.rdBlksz.toNat ≤ s.build.blkszMax

/-- "`samples_emitted` never exceeds `total_samples`" (R31); until the first clamp it is a multiple of 8, from then on
it equals `FMT_TOTAL` (R32). -/
abbrev State.emittedOk (s : State) : Prop :=
  s.regs.rdEmitted.toNat ≤ s.regs.fmtTotal.toNat ∧
    (s.regs.rdEmitted.toNat % 8 = 0 ∨ s.regs.rdEmitted = s.regs.fmtTotal)

/-- `ERR` is 0 or 1: "No other value is ever written" (R35). -/
abbrev State.statusOk (s : State) : Prop := s.regs.statusErr = 0 ∨ s.regs.statusErr = 1

/-- Every memory is in canonical form and within its size. -/
abbrev State.memoriesOk (s : State) : Prop :=
  s.buf.fits (s.build.size .buf) ∧ s.ch0.fits (s.build.size (.ch 0)) ∧ s.ch1.fits (s.build.size (.ch 1)) ∧
    s.out.fits (s.build.size .out)

/-- The invariant of the machine: what reset leaves and every step keeps. -/
structure State.Inv (s : State) : Prop where
  build    : s.build.wf
  reader   : s.readerOk
  emitted  : s.emittedOk
  status   : s.statusOk
  memories : s.memoriesOk

/-- The source is one `READ n` may be issued for: no parse has failed on it (R175), and where R191 is followed the host has
not touched it, or the `READ` asks it for nothing (log 25). -/
abbrev State.sourceUsable (s : State) (n : Nat) : Prop :=
  s.src.discarded = false ∧ (s.build.strictDuties = true → s.sourceKept n = true)

/-- The source is one `INIT` may be issued for: no parse has failed on it (R175), and where R191 is followed it is fit
(log 25). -/
abbrev State.sourceReady (s : State) : Prop :=
  s.src.discarded = false ∧ (s.build.strictDuties = true → s.src.fit = true)

/-- The source answers uselessly for ever, once the answers laid down are used up: it never ends and yields one byte, less
than `N_CH`, each time (R141). -/
abbrev Source.useless (src : Source) : Prop := src.more ≠ none ∧ src.thereafter = some 1

/-- R249's premise: every `SrcRead` answers, and the source is finite or its answers are of some use. -/
abbrev State.sourceAnswers (s : State) : Prop :=
  (∀ a ∈ s.src.answers, a ≠ SourceAnswer.never) ∧ ¬ s.src.useless

/-- The reference source of R67: a finite list with a cursor. -/
abbrev Source.isReference (src : Source) : Prop := src.answers = [] ∧ src.thereafter = none ∧ src.more = none

/-- Asked for `k` bytes again and again, the source yields these lists in turn, none of them empty, and is then
`src'`. -/
def Source.yields (k : Nat) : Source → List (List Byte) → Source → Prop
  | src, [], src' => src' = src
  | src, bytes :: rest, src' => bytes ≠ [] ∧ ∃ mid, src.read k = some (bytes, mid) ∧ mid.yields k rest src'

/-- `BUF` after a refill of `bytes`: those from 0 up, the rest as it was (R133). -/
def refillContents (buf : Nat → Byte) (bytes : List Byte) : Nat → Byte :=
  fun a => if a < bytes.length then bytes.getD a 0 else buf a

/-- How many bytes per channel these refills have to serve, each half its length rounded down (R133, R138). -/
def servable (refills : List (List Byte)) : Nat := (refills.map fun bytes => bytes.length / 2).sum

/-- What these refills have to serve for channel `c` with blocks of `blksz` bytes, in order: of each the first bytes of the
channel's region of `BUF`, stale ones of a short refill included (R134, R138). -/
def deliver (blksz c : Nat) : (Nat → Byte) → List (List Byte) → List Byte
  | _, [] => []
  | buf, bytes :: rest =>
    (List.range (bytes.length / 2)).map (fun k => refillContents buf bytes (c * blksz + k)) ++
      deliver blksz c (refillContents buf bytes) rest

/-- The unread bytes of channel `c` in `BUF`, then what the refills have to serve for it: the bytes `READ` appends to one
another in `CH[c]` (R134). -/
def State.offered (s : State) (c : Fin 2) (refills : List (List Byte)) : List Byte :=
  s.readBytes .buf (s.unread c) (s.regs.rdFilled.toNat - s.regs.rdPos.toNat) ++
    deliver s.regs.rdBlksz.toNat c.val (s.readByte .buf) refills

/-- The host action issues a `READ`. -/
def HostAction.isRead : HostAction → Bool
  | .wr reg v => reg == cmdReg && (decode (v.setWidth 32)).toOption.any Instr.isRead
  | .command i => i.isRead
  | _ => false

/-- Run commands one after another; the sum of the `RESULT`s of the `READ`s among them (the `S` of R137), and the state
after the last. `none` when one of them does not complete. -/
def servedBy : List Instr → State → Option (Nat × State)
  | [], s => some (0, s)
  | i :: rest, s =>
    match exec i s with
    | .next t =>
      (servedBy rest t).map fun p => ((if i.isRead then t.regs.result.toNat else 0) + p.1, p.2)
    | _ => none

end Sys2Proof.Machine
end

