-- ==== Sys2Proof/Certificates/Slice0/Obligations.lean ====
section
/-! DEFINITION. The statements for the provers, from the numbered rules of spec/. A statement about a next state gives
the whole of it: the parts it does not spell out are said to be as before, by an equation `t = { s with ... }` that names
every part that may change. -/

open Sys2Proof Sys2Proof.Machine

/-! ## The command word -/

/-- Decoding an encoded command gives it back, for every command and every operand the word can hold (R91, R92, R93). -/
def Obligations.DecodeOfEncode : Prop :=
  ∀ i : Instr, i.wellFormed = true → decode (encode i) = .ok i

/-- Encoding a decoded command gives the word back: no bit of a command word is ignored (R91, R92, R93). -/
def Obligations.EncodeOfDecode : Prop :=
  ∀ (w : Word32) (i : Instr), decode w = .ok i → i.wellFormed = true ∧ encode i = w

/-- R93: a word is a command exactly when its masked bits are the row's, and its operand is what R92 says. -/
def Obligations.DecodeFollowsTheOpcodeTable : Prop :=
  ∀ w : Word32,
    (decode w = .ok .init ↔ w &&& 0xFFFFFFFF = 0x01000000) ∧
    (∀ n, decode w = .ok (.read n) ↔ w &&& 0xFF000000 = 0x02000000 ∧ n = w.toNat % 2 ^ 24) ∧
    (∀ n, decode w = .ok (.encd n) ↔ w &&& 0xFF000000 = 0x03000000 ∧ n = w.toNat % 2 ^ 24) ∧
    (∀ n, decode w = .ok (.encp n) ↔ w &&& 0xFF000000 = 0x04000000 ∧ n = w.toNat % 2 ^ 24) ∧
    (∀ b, decode w = .ok (.rev b) ↔ w &&& 0xFFFFFF00 = 0x05000000 ∧ b = BitVec.ofNat 8 w.toNat) ∧
    (∀ b, decode w = .ok (.norm b) ↔ w &&& 0xFFFFFF00 = 0x06000000 ∧ b = BitVec.ofNat 8 w.toNat)

/-- R94: the reserved words are exactly those it lists, and writing one to `CMD` is refused with no step. That a wider value
written to `CMD` counts by its low 32 bits is the model's inference (log 11), that a write is an action of the host's script
its choice (log 1). -/
def Obligations.ReservedWordsAreRefused : Prop :=
  ∀ w : Word32,
    ((∀ i, decode w ≠ .ok i) ↔
      (w.toNat / 2 ^ 24 = 0 ∨ 7 ≤ w.toNat / 2 ^ 24 ∨ (w.toNat / 2 ^ 24 = 1 ∧ w.toNat % 2 ^ 24 ≠ 0) ∨
        ((w.toNat / 2 ^ 24 = 5 ∨ w.toNat / 2 ^ 24 = 6) ∧ w.toNat % 2 ^ 24 / 2 ^ 8 ≠ 0))) ∧
    ∀ (s : State) (v : Word64) (rest : List HostAction), s.agent.todo = .wr 12 v :: rest → v.setWidth 32 = w →
      (∀ i, decode w ≠ .ok i) → ∃ e, step s = .refused (.reservedWord e)

/-- Command words written out in the spec's worked examples decode to the commands they stand for (R93; vectors of
95_test_vectors.md). -/
def Obligations.WorkedExampleWordsDecode : Prop :=
  decode 0x01000000 = .ok .init ∧ decode 0x02000004 = .ok (.read 4) ∧ decode 0x03000008 = .ok (.encd 8) ∧
  decode 0x04000003 = .ok (.encp 3) ∧ decode 0x0500001A = .ok (.rev 0x1A) ∧ decode 0x060000FF = .ok (.norm 0xFF) ∧
  decode 0x02FFFFFF = .ok (.read 16777215)

/-- R90: a write of `CMD` (register 12) runs the command its word decodes to, in the state in which the write has been
taken off the host's script (the script is the model's choice, log 1; the low 32 bits of a wider value its inference,
log 11). -/
def Obligations.StepRunsTheCommandWritten : Prop :=
  ∀ (s : State) (v : Word64) (rest : List HostAction) (i : Instr),
    s.agent.todo = .wr 12 v :: rest → decode (v.setWidth 32) = .ok i →
      step s = exec i { s with agent := { s.agent with todo := rest } }

/-- R96: a script line that is a command by its mnemonic writes the matching word, so that it runs that command, and so does
`ENCD r` (R97). A line whose count no word holds is refused: the model's choice (log 18). -/
def Obligations.CommandLinesRunTheirCommand : Prop :=
  ∀ (s : State) (a : HostAction) (i : Instr) (rest : List HostAction), s.agent.todo = a :: rest →
    (a = .command i ∨ a = .encdR ∧ i = .encd s.agent.r) →
    (i.wellFormed = true → step s = exec i { s with agent := { s.agent with todo := rest } }) ∧
    (i.wellFormed = false → step s = .refused (.operandTooWide i))

/-- A command word placed as the host's next write of `CMD` is what the next step runs (the placing is the model's, log
1; the run is R90's). -/
def Obligations.PlacedWordRunsNext : Prop :=
  ∀ (s : State) (w : Nat) (i : Instr), decodeTableWord 32 w = some i → step (s.withFetchWord 32 w) = exec i s

/-! ## BRT -/

/-- R120: `TABLE` has 256 entries and `bit_i(TABLE[x]) = bit_(7-i)(x)`. -/
def Obligations.TableReversesTheBitOrder : Prop :=
  Rom.table.length = 256 ∧
    ∀ (x : Byte) (i : Nat), i < 8 →
      Rom.table[x.toNat]? = some (Rom.lookup x) ∧ (Rom.lookup x).getLsbD i = x.getLsbD (7 - i)

/-- R122 (a), (b): the table is its own inverse, and its fixed points are the 16 palindromes listed. -/
def Obligations.TableIsSelfInverse : Prop :=
  ∀ x : Byte, Rom.lookup (Rom.lookup x) = x ∧
    (Rom.lookup x = x ↔
      x ∈ [0x00#8, 0x18#8, 0x24#8, 0x3C#8, 0x42#8, 0x5A#8, 0x66#8, 0x7E#8,
           0x81#8, 0x99#8, 0xA5#8, 0xBD#8, 0xC3#8, 0xDB#8, 0xE7#8, 0xFF#8])

/-- R124: `REV b` puts `TABLE[b]` in `RESULT`, clears `ERR`, and changes nothing else, in every state. -/
def Obligations.RevLooksUpTheTable : Prop :=
  ∀ (b : Byte) (s : State),
    decode (0x05#8 ++ (0#16 ++ b)) = .ok (.rev b) ∧
    exec (.rev b) s =
      .next { s with regs := { s.regs with result := (Rom.lookup b).setWidth 32, statusErr := 0 } }

/-- R125: `NORM b` puts `norm(FMT_LSBF, b)` in `RESULT`, clears `ERR`, and changes nothing else, in every state. -/
def Obligations.NormFollowsTheActiveFormat : Prop :=
  ∀ (b : Byte) (s : State),
    decode (0x06#8 ++ (0#16 ++ b)) = .ok (.norm b) ∧
    exec (.norm b) s =
      .next { s with regs := { s.regs with
        result := (if s.regs.fmtLsbf then Rom.lookup b else b).setWidth 32, statusErr := 0 } }

/-! ## SBR: INIT -/

/-- R131: the word of `INIT`; under its host duties it leaves the active format and the block size as staged and an empty
reader, and touches nothing else: not `BUF`, `CH`, `OUT`, the `CFG_*` registers or the source. Two `INIT`s in a row give
the same state as one, and `INIT` straight after reset is the reset state again. (`use` is the model's record of a host
duty, no state of the block; `ATouchedSourceIsReadAsItStands` says what `INIT` makes of it.) -/
def Obligations.InitActivatesTheStagedFormat : Prop :=
  decode 0x01000000 = .ok .init ∧
  (∀ s : State, s.sourceReady → s.regs.cfgBlksz.toNat ≤ s.build.blkszMax →
    ∃ use, exec .init s =
      .next { s with use := use, regs := { s.regs with
        fmtSrate := s.regs.cfgSrate, fmtLsbf := s.regs.cfgLsbf, fmtTotal := s.regs.cfgTotal,
        rdBlksz := s.regs.cfgBlksz, rdFilled := 0, rdPos := 0, rdEmitted := 0, result := 0, statusErr := 0 } }) ∧
  (∀ s t : State, exec .init s = .next t → exec .init t = .next t) ∧
  ∃ use, exec .init State.reset = .next { State.reset with use := use }

/-! ## SBR: READ -/

/-- R140: `READ 0` changes `RESULT` and `STATUS` only (`RD_EMITTED <= FMT_TOTAL` is R31's invariant). -/
def Obligations.ReadZeroChangesNothing : Prop :=
  ∀ s : State, s.sourceUsable 0 → s.regs.rdEmitted.toNat ≤ s.regs.fmtTotal.toNat →
    exec (.read 0) s = .next { s with regs := { s.regs with result := 0, statusErr := 0 } }

/-- R139: with `RD_BLKSZ = 0` a `READ n` with `n > 0` reports the end of the stream and changes nothing else. -/
def Obligations.ReadBeforeConfigurationReportsTheEnd : Prop :=
  ∀ (s : State) (n : Nat), s.sourceUsable n → 0 < n → n ≤ s.build.chCap → s.regs.rdBlksz = 0 →
    s.regs.rdFilled = 0 → s.regs.rdPos = 0 →
    exec (.read n) s = .next { s with regs := { s.regs with result := 0, statusErr := 0 } }

/-- R134, R136: a `READ n` that the buffer can serve copies `n` bytes of each channel's region, asks the source for
nothing, and reports them less the truncation. -/
def Obligations.ReadServesFromTheBuffer : Prop :=
  ∀ (s : State) (n : Nat), s.sourceUsable n → 0 < n → n ≤ s.build.chCap → s.readerOk →
    s.regs.rdPos.toNat + n ≤ s.regs.rdFilled.toNat →
    ∃ t, exec (.read n) s = .next t ∧
      (∀ (c : Fin 2) (a : Nat), t.readByte (.ch c) a =
        if a < n then s.readByte .buf (c.val * s.regs.rdBlksz.toNat + s.regs.rdPos.toNat + a)
        else s.readByte (.ch c) a) ∧
      t.regs.rdPos.toNat = s.regs.rdPos.toNat + n ∧
      t.regs.rdEmitted.toNat = min (s.regs.rdEmitted.toNat + 8 * n) s.regs.fmtTotal.toNat ∧
      t.regs.result.toNat = n - (s.regs.rdEmitted.toNat + 8 * n - s.regs.fmtTotal.toNat) / 8 ∧
      t = { s with
        ch0 := t.ch0, ch1 := t.ch1
        regs := { s.regs with
          rdPos := t.regs.rdPos, rdEmitted := t.regs.rdEmitted, result := t.regs.result, statusErr := 0 } }

/-- R133, R134, R138: an exhausted buffer is refilled with whatever bytes the source yields, short or full, and the
request, when they cover it, is served from the fixed regions: a byte the refill did not write is the old one. -/
def Obligations.ReadRefillsAndServes : Prop :=
  ∀ (s : State) (n : Nat) (bytes : List Byte) (src : Source),
    s.sourceUsable n → 0 < n → n ≤ s.build.chCap → s.readerOk → s.regs.rdPos = s.regs.rdFilled →
    s.src.read (2 * s.regs.rdBlksz.toNat) = some (bytes, src) → n ≤ bytes.length / 2 →
    ∃ t, exec (.read n) s = .next t ∧
      (∀ a, t.readByte .buf a = if a < bytes.length then bytes.getD a 0 else s.readByte .buf a) ∧
      (∀ (c : Fin 2) (a : Nat), t.readByte (.ch c) a =
        if a < n then t.readByte .buf (c.val * s.regs.rdBlksz.toNat + a) else s.readByte (.ch c) a) ∧
      t.regs.rdFilled.toNat = bytes.length / 2 ∧ t.regs.rdPos.toNat = n ∧ t.src = src ∧
      t.regs.rdEmitted.toNat = min (s.regs.rdEmitted.toNat + 8 * n) s.regs.fmtTotal.toNat ∧
      t.regs.result.toNat = n - (s.regs.rdEmitted.toNat + 8 * n - s.regs.fmtTotal.toNat) / 8 ∧
      t = { s with
        buf := t.buf, ch0 := t.ch0, ch1 := t.ch1, src := t.src
        regs := { s.regs with
          rdFilled := t.regs.rdFilled, rdPos := t.regs.rdPos, rdEmitted := t.regs.rdEmitted,
          result := t.regs.result, statusErr := 0 } }

/-- R67: a finite list with no answer laid down and no limit is the reference source: `r = min(K, len(S) - p)`, the next `r`
bytes, the cursor past them; R66: `SrcRead(0)` takes nothing. -/
def Obligations.ReferenceSourceYieldsTheNextBytes : Prop :=
  ∀ (src : Source) (k : Nat), src.isReference →
    ∃ bytes, src.read k = some (bytes, { src with cursor := src.cursor + bytes.length }) ∧
      bytes.length = min k (src.stream.length - src.cursor) ∧
      ∀ j, j < bytes.length → bytes[j]? = src.stream[src.cursor + j]?

/-- R135: when the first thing a `READ n` meets is a refill that yields nothing, it reports 0 and changes nothing but
`RESULT` and `STATUS` (and the source's own record of its answers). -/
def Obligations.ReadAtEndOfStreamReportsZero : Prop :=
  ∀ (s : State) (n : Nat) (src : Source), s.sourceUsable n → 0 < n → n ≤ s.build.chCap →
    s.regs.rdPos = s.regs.rdFilled → s.src.read (2 * s.regs.rdBlksz.toNat) = some ([], src) →
    exec (.read n) s = .next { s with src := src, regs := { s.regs with result := 0, statusErr := 0 } }

/-- R133, R134: a request larger than what is left of the buffer takes that part first and goes on in the refilled
buffer: each chunk is appended after the bytes the call has already delivered. -/
def Obligations.ReadContinuesInTheNextBlock : Prop :=
  ∀ (s : State) (n m : Nat) (bytes : List Byte) (src : Source),
    s.sourceUsable n → n ≤ s.build.chCap → n < 2 ^ 24 → s.readerOk →
    s.regs.rdPos.toNat + m = s.regs.rdFilled.toNat → 0 < m → m < n →
    s.src.read (2 * s.regs.rdBlksz.toNat) = some (bytes, src) → n - m ≤ bytes.length / 2 →
    ∃ t, exec (.read n) s = .next t ∧
      (∀ a, t.readByte .buf a = if a < bytes.length then bytes.getD a 0 else s.readByte .buf a) ∧
      (∀ (c : Fin 2) (a : Nat), t.readByte (.ch c) a =
        if a < m then s.readByte .buf (c.val * s.regs.rdBlksz.toNat + s.regs.rdPos.toNat + a)
        else if a < n then t.readByte .buf (c.val * s.regs.rdBlksz.toNat + (a - m))
        else s.readByte (.ch c) a) ∧
      t.regs.rdFilled.toNat = bytes.length / 2 ∧ t.regs.rdPos.toNat = n - m ∧ t.src = src ∧
      t.regs.rdEmitted.toNat = min (s.regs.rdEmitted.toNat + 8 * n) s.regs.fmtTotal.toNat ∧
      t.regs.result.toNat = n - (s.regs.rdEmitted.toNat + 8 * n - s.regs.fmtTotal.toNat) / 8 ∧
      t = { s with
        buf := t.buf, ch0 := t.ch0, ch1 := t.ch1, src := t.src
        regs := { s.regs with
          rdFilled := t.regs.rdFilled, rdPos := t.regs.rdPos, rdEmitted := t.regs.rdEmitted,
          result := t.regs.result, statusErr := 0 } }

/-- R79, R133, R134, R143 (e): de-interleaving. From an exhausted buffer, with the reference source standing at the
start of whole block groups of `B = RD_BLKSZ` bytes per channel, `READ n` delivers the next `n` bytes of each channel in
stream order, byte `a` of channel `c` from offset `a % B` of its block in block group `a / B`, and takes just the block
groups it needs. -/
def Obligations.ReadDeinterleavesTheBlockGroups : Prop :=
  ∀ (s : State) (n : Nat), s.sourceUsable n → s.src.answers = [] → s.src.thereafter = none → n ≤ s.build.chCap → n < 2 ^ 24 →
    s.readerOk → s.regs.rdPos = s.regs.rdFilled → 0 < s.regs.rdBlksz.toNat →
    let B := s.regs.rdBlksz.toNat
    let groups := (n + B - 1) / B
    s.src.cursor + 2 * B * groups ≤ s.src.stream.length →
    ∃ t, exec (.read n) s = .next t ∧
      (∀ (c : Fin 2) (a : Nat), a < n →
        s.src.stream[s.src.cursor + 2 * B * (a / B) + c.val * B + a % B]? = some (t.readByte (.ch c) a)) ∧
      t.src.cursor = s.src.cursor + 2 * B * groups ∧
      t.regs.rdEmitted.toNat = min (s.regs.rdEmitted.toNat + 8 * n) s.regs.fmtTotal.toNat ∧
      t.regs.result.toNat = n - (s.regs.rdEmitted.toNat + 8 * n - s.regs.fmtTotal.toNat) / 8

/-- R133, R134, R138, R141: a request that takes any number of refills, each full or short. While what they bring does not
cover it the loop refills again, a refill of one byte included, which serves nothing; what each has to serve is appended
(`State.offered`), and `BUF` holds the last bytes written to it. -/
def Obligations.ReadServesWhateverItsRefillsBring : Prop :=
  ∀ (s : State) (n : Nat) (refills : List (List Byte)) (last : List Byte) (src : Source),
    s.sourceUsable n → n ≤ s.build.chCap → n < 2 ^ 24 → s.readerOk →
    s.src.yields (2 * s.regs.rdBlksz.toNat) (refills ++ [last]) src →
    let m := s.regs.rdFilled.toNat - s.regs.rdPos.toNat + servable refills
    m < n → n ≤ m + last.length / 2 →
    ∃ t, exec (.read n) s = .next t ∧
      (∀ a, t.readByte .buf a = (refills ++ [last]).foldl refillContents (s.readByte .buf) a) ∧
      (∀ (c : Fin 2) (a : Nat), t.readByte (.ch c) a =
        if a < n then (s.offered c (refills ++ [last])).getD a 0 else s.readByte (.ch c) a) ∧
      t.regs.rdFilled.toNat = last.length / 2 ∧ t.regs.rdPos.toNat = n - m ∧ t.src = src ∧
      t.regs.rdEmitted.toNat = min (s.regs.rdEmitted.toNat + 8 * n) s.regs.fmtTotal.toNat ∧
      t.regs.result.toNat = n - (s.regs.rdEmitted.toNat + 8 * n - s.regs.fmtTotal.toNat) / 8 ∧
      t = { s with
        buf := t.buf, ch0 := t.ch0, ch1 := t.ch1, src := t.src
        regs := { s.regs with
          rdFilled := t.regs.rdFilled, rdPos := t.regs.rdPos, rdEmitted := t.regs.rdEmitted,
          result := t.regs.result, statusErr := 0 } }

/-- R135: bytes copied before a refill that yields nothing stay in `CH` and are never reported, whether they were unread at
entry or came from refills of the same call, full or short: `RESULT = 0`, `RD_EMITTED` as it was, `RD_POS` equal to
`RD_FILLED`. -/
def Obligations.PartialReadIsNeverReported : Prop :=
  ∀ (s : State) (n : Nat) (refills : List (List Byte)) (mid src : Source),
    s.sourceUsable n → n ≤ s.build.chCap → s.readerOk →
    s.src.yields (2 * s.regs.rdBlksz.toNat) refills mid → mid.read (2 * s.regs.rdBlksz.toNat) = some ([], src) →
    let m := s.regs.rdFilled.toNat - s.regs.rdPos.toNat + servable refills
    m < n →
    ∃ t, exec (.read n) s = .next t ∧
      (∀ a, t.readByte .buf a = refills.foldl refillContents (s.readByte .buf) a) ∧
      (∀ (c : Fin 2) (a : Nat), t.readByte (.ch c) a =
        if a < m then (s.offered c refills).getD a 0 else s.readByte (.ch c) a) ∧
      t.regs.rdFilled.toNat =
        (refills.getLast?.map fun bytes => bytes.length / 2).getD s.regs.rdFilled.toNat ∧
      t = { s with
        buf := t.buf, ch0 := t.ch0, ch1 := t.ch1, src := src
        regs := { s.regs with
          rdFilled := t.regs.rdFilled, rdPos := t.regs.rdFilled, result := 0, statusErr := 0 } }

/-- R141: under the machine's invariant a `READ` within its host duties completes, however short the source's answers, as
long as it answers and is finite or answers more than a byte (R249's premise, `State.sourceAnswers`). -/
def Obligations.ReadCompletesWhenTheSourceAnswers : Prop :=
  ∀ (s : State) (n : Nat), s.Inv → s.sourceUsable n → s.sourceAnswers → n ≤ s.build.chCap →
    ∃ t, exec (.read n) s = .next t

/-- R141, R200 (c), R249: under the invariant a `READ` faults, that is never ends, for two reasons only: a source that never
answers, or an endless one that answers one byte each time (the faults' names are the model's, log 6 and log 7; the refusals
of a `READ` are `CommandsRefuseTheClosedListOnly`'s). -/
def Obligations.ReadFaultsOnlyOnASourceThatHangsIt : Prop :=
  ∀ (s : State) (n : Nat) (f : Fault), s.Inv → exec (.read n) s = .fault f →
    f = .sourceNeverAnswers ∧ SourceAnswer.never ∈ s.src.answers ∨ f = .readNeverEnds ∧ s.src.useless

/-- R249: a `READ` that needs a refill from a source that never answers does not end: the model stops by the name
`sourceNeverAnswers` (log 6). -/
def Obligations.ReadHangsOnASilentSource : Prop :=
  ∀ (s : State) (n : Nat) (rest : List SourceAnswer), s.sourceUsable n → 0 < n → n ≤ s.build.chCap →
    s.regs.rdPos = s.regs.rdFilled → s.regs.rdBlksz ≠ 0 → s.src.answers = .never :: rest →
    exec (.read n) s = .fault .sourceNeverAnswers

/-- R141: a `READ` that needs a refill from an endless source that answers one byte each time does not end: the model stops
by the name `readNeverEnds` (log 7). -/
def Obligations.ReadHangsOnAUselessSource : Prop :=
  ∀ (s : State) (n : Nat), s.sourceUsable n → 0 < n → n ≤ s.build.chCap → s.readerOk → s.regs.rdPos = s.regs.rdFilled →
    s.regs.rdBlksz ≠ 0 → s.src.answers = [] → s.src.useless → exec (.read n) s = .fault .readNeverEnds

/-- R143 (a), (b), (d), and the frame of R132: a `READ n` that completes reports at most `n` bytes, under the invariant
either 0 with `RD_EMITTED` as it was or `n` less the truncation, writes no byte of `CH` at
or past `n`, and changes the reader, the outcome registers, `BUF`, `CH` and the source only. -/
def Obligations.ReadWritesAtMostWhatWasAsked : Prop :=
  ∀ (s t : State) (n : Nat), exec (.read n) s = .next t →
    t.regs.result.toNat ≤ n ∧
    (s.Inv →
      t.regs.result = 0 ∧ t.regs.rdEmitted = s.regs.rdEmitted ∨
      t.regs.result.toNat = n - (s.regs.rdEmitted.toNat + 8 * n - s.regs.fmtTotal.toNat) / 8 ∧
        t.regs.rdEmitted.toNat = min (s.regs.rdEmitted.toNat + 8 * n) s.regs.fmtTotal.toNat) ∧
    (∀ (c : Fin 2) (a : Nat), n ≤ a → t.readByte (.ch c) a = s.readByte (.ch c) a) ∧
    (∀ a, t.readByte .out a = s.readByte .out a) ∧
    t = { s with
      buf := t.buf, ch0 := t.ch0, ch1 := t.ch1
      src := { s.src with cursor := t.src.cursor, answers := t.src.answers }
      regs := { s.regs with
        rdFilled := t.regs.rdFilled, rdPos := t.regs.rdPos, rdEmitted := t.regs.rdEmitted,
        result := t.regs.result, statusErr := 0 } }

/-- R32: no command but `INIT`, which sets it to 0, lowers `RD_EMITTED`, and a `READ` that returns 0 leaves it unchanged;
it stays a multiple of 8 until it is clamped, and once it equals `FMT_TOTAL` it does so from then on. -/
def Obligations.EmittedNeverDecreases : Prop :=
  ∀ (i : Instr) (s t : State), s.Inv → exec i s = .next t →
    (i = .init → t.regs.rdEmitted = 0) ∧
    (i ≠ .init →
      s.regs.rdEmitted.toNat ≤ t.regs.rdEmitted.toNat ∧
      (∀ n, i = .read n → t.regs.result = 0 → t.regs.rdEmitted = s.regs.rdEmitted) ∧
      (t.regs.rdEmitted.toNat % 8 = 0 ∨ t.regs.rdEmitted = s.regs.fmtTotal) ∧
      (s.regs.rdEmitted = s.regs.fmtTotal → t.regs.rdEmitted = s.regs.fmtTotal))

/-- R137 (c): once the declared count is used up every `READ` reports 0. -/
def Obligations.NothingIsReportedPastTheDeclaredCount : Prop :=
  ∀ (s t : State) (n : Nat), s.regs.rdEmitted = s.regs.fmtTotal → exec (.read n) s = .next t →
    t.regs.result = 0 ∧ t.regs.rdEmitted = s.regs.rdEmitted

/-- R137 (a), (b), (d): over any series of commands with no `INIT` among them, from a reader that has served nothing,
the sum `S` of the bytes reported is `RD_EMITTED / 8` until a call truncates and exactly `ceil(FMT_TOTAL / 8)` from then
on, so it never exceeds that. -/
def Obligations.ReportedBytesAddUpToTheDeclaredCount : Prop :=
  ∀ (is : List Instr) (s t : State) (total : Nat), s.Inv → s.regs.rdEmitted = 0 → (∀ i ∈ is, i ≠ .init) →
    servedBy is s = some (total, t) →
      total ≤ (s.regs.fmtTotal.toNat + 7) / 8 ∧
      (t.regs.rdEmitted.toNat = 8 * total ∨
        t.regs.rdEmitted = s.regs.fmtTotal ∧ total = (s.regs.fmtTotal.toNat + 7) / 8)

/-! ## MUX -/

/-- R151: within its host duty `ENCD n` writes the direct frames of the `n / 4` whole groups, reports `2n` bytes, clears
`ERR`, leaves `OUT` from `2n` up and everything else as it was (`draws` is the model's count of free bytes, log 5). -/
def Obligations.EncdWritesDirectFrames : Prop :=
  ∀ (s : State) (n : Nat), n ≤ s.build.chCap → n < 2 ^ 24 →
    decode (0x03#8 ++ BitVec.ofNat 24 n) = .ok (.encd n) ∧
    ∃ t, exec (.encd n) s = .next t ∧
      (∀ g k, g < n / 4 → k < 4 →
        t.readByte .out (8 * g + k) =
          (if s.regs.fmtLsbf then Rom.lookup (s.readByte (.ch 0) (4 * g + k)) else s.readByte (.ch 0) (4 * g + k)) ∧
        t.readByte .out (8 * g + 4 + k) =
          (if s.regs.fmtLsbf then Rom.lookup (s.readByte (.ch 1) (4 * g + k)) else s.readByte (.ch 1) (4 * g + k))) ∧
      (∀ a, 2 * n ≤ a → t.readByte .out a = s.readByte .out a) ∧
      t.regs.result.toNat = 2 * n ∧
      t = { s with
        out := t.out, draws := t.draws
        regs := { s.regs with result := t.regs.result, statusErr := 0 } }

/-- R152: the tail of a partial group is `any`: each of the last `2n - 8*(n/4)` bytes is a free byte of its own, none
drawn before (the form of the draw is the model's, log 5). -/
def Obligations.EncdTailIsFree : Prop :=
  ∀ (s t : State) (n : Nat), exec (.encd n) s = .next t →
    t.draws = s.draws + (2 * n - 8 * (n / 4)) ∧
    ∀ a, 8 * (n / 4) ≤ a → a < 2 * n → t.readByte .out a = Config.freeByte (s.draws + (a - 8 * (n / 4)))

/-- R153: for whole groups, encoding with `FMT_LSBF = 1` the bytes `TABLE[x]` gives the same `OUT` as encoding with
`FMT_LSBF = 0` the bytes `x`. -/
def Obligations.EncdOfReversedBytesUndoesTheReversal : Prop :=
  ∀ (s1 s2 t1 t2 : State) (n : Nat), n % 4 = 0 → s1.regs.fmtLsbf = true → s2.regs.fmtLsbf = false →
    (∀ (c : Fin 2) (a : Nat), a < n → s1.readByte (.ch c) a = Rom.lookup (s2.readByte (.ch c) a)) →
    exec (.encd n) s1 = .next t1 → exec (.encd n) s2 = .next t2 →
    ∀ a, a < 2 * n → t1.readByte .out a = t2.readByte .out a

/-! ## DOP -/

/-- R161: within its host duty `ENCP n` with an even `n` writes the DoP frames, group-major and channel-minor, each led
by the one marker byte, reports `3n` bytes, clears `ERR`, leaves `OUT` from `3n` up and everything else as it was; with
an odd `n` it raises FramingError and does nothing else. -/
def Obligations.EncpWritesDopFrames : Prop :=
  ∀ (s : State) (n : Nat), n ≤ s.build.chCap → n < 2 ^ 24 →
    decode (0x04#8 ++ BitVec.ofNat 24 n) = .ok (.encp n) ∧
    (n % 2 = 1 → exec (.encp n) s = .next { s with regs := { s.regs with result := 0, statusErr := 1 } }) ∧
    (n % 2 = 0 → ∃ t, exec (.encp n) s = .next t ∧
      (∀ (g : Nat) (c : Fin 2), g < n / 2 →
        t.readByte .out ((g * 2 + c.val) * 3) = Config.dopMarker ∧
        t.readByte .out ((g * 2 + c.val) * 3 + 1) =
          (if s.regs.fmtLsbf then Rom.lookup (s.readByte (.ch c) (2 * g)) else s.readByte (.ch c) (2 * g)) ∧
        t.readByte .out ((g * 2 + c.val) * 3 + 2) =
          (if s.regs.fmtLsbf then Rom.lookup (s.readByte (.ch c) (2 * g + 1))
           else s.readByte (.ch c) (2 * g + 1))) ∧
      (∀ a, 3 * 2 * (n / 2) ≤ a → t.readByte .out a = s.readByte .out a) ∧
      t.regs.result.toNat = 3 * n ∧
      t = { s with
        out := t.out
        regs := { s.regs with result := t.regs.result, statusErr := 0 } })

/-- R162: an odd `n` raises FramingError: `ERR` is 1, `RESULT` is 0, and nothing else changes; the next command runs as
it would have run before. -/
def Obligations.OddEncpRaisesFramingError : Prop :=
  ∀ (s : State) (n : Nat), n ≤ s.build.chCap → n % 2 = 1 →
    let t := { s with regs := { s.regs with result := 0, statusErr := 1 } }
    exec (.encp n) s = .next t ∧ ∀ i, exec i t = exec i s

/-! ## Errors, refusals, commands as a whole -/

/-- R201: FramingError is raised by an `ENCP` with an odd count and by nothing else, it records `ERR = 1` and
`RESULT = 0` and has no other effect; every other command that completes, the next one included, writes `ERR = 0`. -/
def Obligations.FramingErrorComesFromOddEncpOnly : Prop :=
  ∀ (i : Instr) (s t : State), exec i s = .next t →
    ((∃ n, i = .encp n ∧ n % 2 = 1) → t = { s with regs := { s.regs with result := 0, statusErr := 1 } }) ∧
    ((∀ n, i = .encp n → n % 2 = 0) → t.regs.statusErr = 0)

/-- R34, R35: every command writes `RESULT` and `STATUS` and none reads them: what they held before shows nowhere in what
a command does. -/
def Obligations.NoCommandReadsTheOutcomeRegisters : Prop :=
  ∀ (i : Instr) (s : State) (v : Word32) (e : BitVec 8),
    exec i { s with regs := { s.regs with result := v, statusErr := e } } = exec i s

/-- R72, R175, R215: the refusals of a command are the closed list, each exactly when its host duty is broken; and where R191
is followed instead, two more, for the duties on the source that it adds. Which of two broken duties is named is the
model's choice (log 24), and so is that it is open which of the two rules is followed (log 25). -/
def Obligations.CommandsRefuseTheClosedListOnly : Prop :=
  ∀ (i : Instr) (s : State) (r : Refusal),
    exec i s = .refused r ↔
      ((i = .init ∨ ∃ n, i = .read n) ∧ s.src.discarded = true ∧ r = .sourceDiscarded) ∨
      (i = .init ∧ s.src.discarded = false ∧ s.build.blkszMax < s.regs.cfgBlksz.toNat ∧
        r = .blockExceedsBuf s.regs.cfgBlksz.toNat) ∨
      (∃ n, (i = .read n ∧ s.src.discarded = false ∨ i = .encd n ∨ i = .encp n) ∧ s.build.chCap < n ∧
        r = .countExceedsChCap n) ∨
      (s.build.strictDuties = true ∧ i = .init ∧ s.src.discarded = false ∧
        s.regs.cfgBlksz.toNat ≤ s.build.blkszMax ∧ s.src.fit = false ∧ r = .sourceUnfit) ∨
      (∃ n, s.build.strictDuties = true ∧ i = .read n ∧ s.src.discarded = false ∧ n ≤ s.build.chCap ∧
        s.use = .touched ∧ s.asksSource n = true ∧ r = .sourceTouched)

/-- R37, R50: no command but `READ` touches `BUF` or takes anything from the source. -/
def Obligations.OnlyReadTouchesTheBufferAndTheSource : Prop :=
  ∀ (i : Instr) (s t : State), i.isRead = false → exec i s = .next t → t.buf = s.buf ∧ t.src = s.src

/-- R52, R37, R190: `BUF` is accessed by `READ` alone. A step that is neither a `READ` nor the reset event does the same
whatever `BUF` holds, and leaves it as it is. -/
def Obligations.TheReaderAloneAccessesTheBuffer : Prop :=
  ∀ (s : State) (m : Memory) (a : HostAction) (rest : List HostAction), s.agent.todo = a :: rest → a.isRead = false →
    a ≠ .resetCore →
    step { s with buf := m } =
      match step s with
      | .next t => .next { t with buf := m }
      | .fault f => .fault f
      | .refused r => .refused r

/-- R191's duty not to touch the source of a stream in use is on record: `INIT` puts a stream in use and no other command
changes that, opening a container or attaching a source then touches the source, and the reset event ends the use. Where
R215's closed list is followed no command heeds the record, whatever it says: every one has the same outcome, a touched
source is read as it stands (R66). The record, and that it is open which of R191 and R215 is followed, are the model's
choices (log 25); that the reset event is an action of the host is log 19's. -/
def Obligations.ATouchedSourceIsReadAsItStands : Prop :=
  (∀ s t : State, exec .init s = .next t → t.use = .inUse) ∧
  (∀ (i : Instr) (s t : State), i ≠ .init → exec i s = .next t → t.use = s.use) ∧
  (∀ (s t : State) (a : HostAction) (rest : List HostAction), s.agent.todo = a :: rest →
    (a = .openContainer ∨ ∃ stream more answers thereafter fit, a = .attach stream more answers thereafter fit) →
    s.use = .inUse → step s = .next t → t.use = .touched) ∧
  (∀ (s t : State) (rest : List HostAction), s.agent.todo = .resetCore :: rest → step s = .next t → t.use = .idle) ∧
  ∀ (i : Instr) (s : State) (u : StreamUse), s.build.strictDuties = false →
    exec i { s with use := u } =
      match exec i s with
      | .next t => .next { t with use := if i = .init then t.use else u }
      | .fault f => .fault f
      | .refused r => .refused r

/-- R16, R191: where R191 is followed (log 25), a command whose duty on the source is broken has no meaning and is refused: a
`READ` that would take bytes from a source the host has touched since the stream's `INIT`, and an `INIT` on a source the
host has not put at the first raw sample byte of a two-channel stream. A `READ` that asks the source for nothing is not
affected, nor is any other command: its outcome is the one it has where R215's closed list is followed. That the two
rules disagree and which commands count as affected is the model's choice (log 25), the order of the refusals log 24's. -/
def Obligations.UnderR191TheAffectedCommandIsRefused : Prop :=
  (∀ (s : State) (n : Nat), s.build.strictDuties = true → s.src.discarded = false → n ≤ s.build.chCap →
    s.use = .touched → s.regs.rdBlksz ≠ 0 → s.regs.rdFilled.toNat - s.regs.rdPos.toNat < n →
    exec (.read n) s = .refused .sourceTouched) ∧
  (∀ s : State, s.build.strictDuties = true → s.src.discarded = false → s.regs.cfgBlksz.toNat ≤ s.build.blkszMax →
    s.src.fit = false → exec .init s = .refused .sourceUnfit) ∧
  (∀ (i : Instr) (s : State), s.build.strictDuties = true → (i = .init → s.src.fit = true) →
    (∀ n, i = .read n → s.use = .touched →
      s.regs.rdBlksz = 0 ∨ n ≤ s.regs.rdFilled.toNat - s.regs.rdPos.toNat) →
    exec i { s with build := { s.build with strictDuties := false } } =
      match exec i s with
      | .next t => .next { t with build := { t.build with strictDuties := false } }
      | .fault f => .fault f
      | .refused r => .refused r)

/-- R24, R131: between two `INIT`s the active format is immutable: no other command writes it. -/
def Obligations.OnlyInitWritesTheActiveFormat : Prop :=
  ∀ (i : Instr) (s t : State), i ≠ .init → exec i s = .next t →
    t.regs.fmtSrate = s.regs.fmtSrate ∧ t.regs.fmtLsbf = s.regs.fmtLsbf ∧ t.regs.fmtTotal = s.regs.fmtTotal ∧
      t.regs.rdBlksz = s.regs.rdBlksz

/-- R24 over the whole machine: a step that changes the active format is the host writing the `INIT` word to `CMD`, which
copies the staging registers, or the reset event (R230, R231). That the event is an action of the host is the model's choice
(log 19), the low 32 bits of a wider value written to `CMD` its inference (log 11). -/
def Obligations.FormatChangesOnlyAtInitOrReset : Prop :=
  ∀ s t : State, step s = .next t →
    ((t.regs.fmtSrate = s.regs.fmtSrate ∧ t.regs.fmtLsbf = s.regs.fmtLsbf ∧ t.regs.fmtTotal = s.regs.fmtTotal ∧
        t.regs.rdBlksz = s.regs.rdBlksz) ∨
      (((∃ (v : Word64) (rest : List HostAction), s.agent.todo = .wr 12 v :: rest ∧ v.setWidth 32 = 0x01000000#32) ∨
          ∃ rest, s.agent.todo = .command .init :: rest) ∧
        t.regs.fmtSrate = s.regs.cfgSrate ∧ t.regs.fmtLsbf = s.regs.cfgLsbf ∧ t.regs.fmtTotal = s.regs.cfgTotal ∧
        t.regs.rdBlksz = s.regs.cfgBlksz) ∨
      (∃ rest, s.agent.todo = .resetCore :: rest))

/-- R13, R209: what a command does depends on the core and the source alone: the host's and the sink's state do not
show in it, and it does not change them. -/
def Obligations.CommandsDoNotSeeHostOrSink : Prop :=
  ∀ (i : Instr) (s : State) (a : Agent) (k : Sink),
    exec i { s with agent := a, sink := k } =
      match exec i s with
      | .next t => .next { t with agent := a, sink := k }
      | .fault f => .fault f
      | .refused r => .refused r

/-- R31, R32, R35, R60, R62: from every state that meets the invariant a step gives a state that meets it: the reader's
cursors and counts stay in order, `ERR` stays 0 or 1, and every memory stays in canonical form and within its size. -/
def Obligations.StepKeepsTheInvariant : Prop :=
  ∀ s t : State, s.Inv → step s = .next t → t.Inv

/-- The invariant holds right after reset (R31, R40); that reset's capacities are within R8's ranges is the model's choice
of them (log 2). -/
def Obligations.ResetMeetsTheInvariant : Prop := State.reset.Inv

/-! ## Registers, reset, memories -/

/-- R40, R230: after reset, and after a reset event in any state, `NCH` reads 2 and every other register 0, and no byte
of a memory holds what was written before: the reset event drops the contents, where R62 reads otherwise (the model's
choice, log 8). The source stays where it was (R231). -/
def Obligations.ResetGivesEveryRegisterItsValue : Prop :=
  (∀ reg, reg < 15 → State.reset.readReg reg = some (if reg = 0 then 2 else 0)) ∧
  ∀ s : State,
    (∀ reg, reg < 15 → s.resetCore.readReg reg = some (if reg = 0 then 2 else 0)) ∧
    (∀ sp, s.resetCore.mem sp = []) ∧ s.resetCore.src = s.src

/-- R30: what a host write of each register number does: the four staging registers take it, a read-only register is left
as it was, a number above 14 is refused. A register narrower than the value takes its low bits (the model's inference,
log 11); the write of `CMD` is `StepRunsTheCommandWritten`'s. -/
def Obligations.HostWritesReachOnlyTheStagingRegisters : Prop :=
  ∀ (s : State) (reg : Nat) (v : Word64) (rest : List HostAction), s.agent.todo = .wr reg v :: rest →
    let p := { s with agent := { s.agent with todo := rest } }
    (reg = 1 → step s = .next { p with regs := { p.regs with cfgSrate := v.setWidth 32 } }) ∧
    (reg = 2 → step s = .next { p with regs := { p.regs with cfgLsbf := v.getLsbD 0 } }) ∧
    (reg = 3 → step s = .next { p with regs := { p.regs with cfgTotal := v } }) ∧
    (reg = 4 → step s = .next { p with regs := { p.regs with cfgBlksz := v.setWidth 32 } }) ∧
    ((reg = 0 ∨ 5 ≤ reg ∧ reg ≤ 11 ∨ reg = 13 ∨ reg = 14) → step s = .next p) ∧
    (15 ≤ reg → step s = .refused (.reservedRegister reg))

/-- R30, R26, R28, R35: the value a read of each register number shows; a read changes nothing else. `RD RESULT -> r`
(R97) puts `RESULT` in the host's variable `r` as well. That the value shown is kept, in `shown`, is the model's choice
(log 26). -/
def Obligations.HostReadsEveryRegister : Prop :=
  ∀ (s : State) (a : HostAction) (rest : List HostAction), s.agent.todo = a :: rest →
    (∀ reg, a = .rd reg → 15 ≤ reg → step s = .refused (.reservedRegister reg)) ∧
    (a = .rdResultToR → step s = .next { s with agent := { s.agent with
      todo := rest, r := s.regs.result.toNat, shown := s.regs.result.setWidth 64 } }) ∧
    (∀ reg, a = .rd reg → reg < 15 → step s = .next { s with agent := { s.agent with
      todo := rest
      shown := BitVec.ofNat 64 <| match reg with
        | 0 => 2
        | 1 => s.regs.cfgSrate.toNat
        | 2 => s.regs.cfgLsbf.toNat
        | 3 => s.regs.cfgTotal.toNat
        | 4 => s.regs.cfgBlksz.toNat
        | 5 => s.regs.fmtSrate.toNat
        | 6 => s.regs.fmtLsbf.toNat
        | 7 => s.regs.fmtTotal.toNat
        | 8 => s.regs.rdBlksz.toNat
        | 9 => s.regs.rdFilled.toNat
        | 10 => s.regs.rdPos.toNat
        | 11 => s.regs.rdEmitted.toNat
        | 13 => s.regs.result.toNat
        | 14 => s.regs.statusErr.toNat
        | _ => 0 } })

/-- R38, R62, R71: bytes the host loads into `CH[c]` or `OUT` are there when it reads them back; every other byte of
every memory is as it was. R96 says only that the bytes read are shown: that they are kept in `agent.seen` is the model's
choice (log 26). -/
def Obligations.HostLoadsAreReadBack : Prop :=
  ∀ (s : State) (sp : HostSpace) (addr : Nat) (bytes : List Byte),
    addr + bytes.length ≤ s.build.size sp.space →
    ∃ t, hostAct (.ld sp addr bytes) s = .next t ∧
      hostAct (.st sp addr bytes.length) t = .next { t with agent := { t.agent with seen := bytes } } ∧
      ∀ (sq : Space) (a : Nat), sq ≠ sp.space ∨ a < addr ∨ addr + bytes.length ≤ a →
        t.readByte sq a = s.readByte sq a

/-! ## The host's procedures -/

/-- R172, R173, R174: a container parses exactly when every magic tag and every checked field is as required, at the
offsets of R172; what it yields are those fields, and its first raw sample byte is at `S1 + S2 + 12` from its start (the
sizes' lower bounds are the model's, log 16). -/
def Obligations.ParserAcceptsTheProfileOnly : Prop :=
  ∀ (p : ContainerProfile) (src : Source) (top first : Nat) (f : StreamFormat),
    parseContainer p src top = .ok (f, first) ↔
    ∃ s1 s2 s3 bits, field src top 4 = .ok p.tagA.toNat ∧ field src (top + 4) 8 = .ok s1 ∧ 12 ≤ s1 ∧
      field src (top + s1) 4 = .ok p.tagB.toNat ∧ field src (top + s1 + 4) 8 = .ok s2 ∧ 48 ≤ s2 ∧
      field src (top + s1 + 12) 4 = .ok 1 ∧ field src (top + s1 + 16) 4 = .ok 0 ∧
      field src (top + s1 + 20) 4 = .ok 2 ∧ field src (top + s1 + 24) 4 = .ok 2 ∧ f.numChannels = 2 ∧
      field src (top + s1 + 28) 4 = .ok f.samplingRate ∧ (f.samplingRate = 2822400 ∨ f.samplingRate = 5644800) ∧
      field src (top + s1 + 32) 4 = .ok bits ∧ (bits = 1 ∧ f.isLsbFirst = true ∨ bits = 8 ∧ f.isLsbFirst = false) ∧
      field src (top + s1 + 36) 8 = .ok f.totalSamples ∧ field src (top + s1 + 44) 4 = .ok f.blockSize ∧
      field src (top + s1 + s2) 4 = .ok p.tagC.toNat ∧ field src (top + s1 + s2 + 4) 8 = .ok s3 ∧
      s3 ∉ p.rejectedSizes ∧ first = top + s1 + s2 + 12

/-- R174, R205, R173: "the first bad field decides the failure". A wrong tag is what is reported, whatever stands after it or
is cut short there, in each of the three chunks. -/
def Obligations.TheFirstBadTagDecides : Prop :=
  ∀ (p : ContainerProfile) (src : Source) (top : Nat),
    (∀ m, field src top 4 = .ok m → m ≠ p.tagA.toNat → parseContainer p src top = .error .topMagic) ∧
    ∀ s1, field src top 4 = .ok p.tagA.toNat → field src (top + 4) 8 = .ok s1 → 12 ≤ s1 →
      (∀ m, field src (top + s1) 4 = .ok m → m ≠ p.tagB.toNat → parseContainer p src top = .error .formatMagic) ∧
      ∀ s2 f m, field src (top + s1) 4 = .ok p.tagB.toNat → field src (top + s1 + 4) 8 = .ok s2 → 48 ≤ s2 →
        parseFormat src (top + s1) = .ok f → field src (top + s1 + s2) 4 = .ok m → m ≠ p.tagC.toNat →
        parseContainer p src top = .error .dataMagic

/-- R175, R181, R215: a parse failure ends the run with a FormatError, and no `INIT` and no `READ` runs on that source
after it. The form of the refusal is the model's choice (log 10), and so is that it comes before the one for a count above
`CH_CAP` (log 24). -/
def Obligations.FailedParseSpoilsTheSource : Prop :=
  ∀ (s : State) (e : ParseError) (rest : List HostAction), s.agent.todo = .openContainer :: rest →
    s.agent.phase = .init → parseContainer s.agent.profile s.src s.src.cursor = .error e →
    ∃ t, step s = .next t ∧ t.agent.phase = .terminated (.formatError e) ∧ t.agent.todo = [] ∧
      t.regs = s.regs ∧ exec .init t = .refused .sourceDiscarded ∧
      ∀ n, exec (.read n) t = .refused .sourceDiscarded

/-- R176, R181: after a parse that succeeds the host's next five actions leave the parsed values active, the source at
the first raw sample byte, and the host in `Negotiating` one action later. The parse, the five and the one are seven steps
of this model (log 1). -/
def Obligations.SuccessfulParseConfiguresTheCore : Prop :=
  ∀ (s : State) (f : StreamFormat) (first : Nat) (rest : List HostAction), s.agent.todo = .openContainer :: rest →
    s.agent.phase = .init → s.src.discarded = false →
    parseContainer s.agent.profile s.src s.src.cursor = .ok (f, first) → f.blockSize ≤ s.build.blkszMax →
    ∃ t, Sys2Proof.core.run 7 s = .next t ∧ t.agent.phase = .negotiating ∧ t.agent.todo = rest ∧
      t.src = { s.src with cursor := first, fit := true } ∧
      t.regs.fmtSrate.toNat = f.samplingRate ∧ t.regs.fmtLsbf = f.isLsbFirst ∧
      t.regs.fmtTotal.toNat = f.totalSamples ∧ t.regs.rdBlksz.toNat = f.blockSize ∧
      t.regs.cfgSrate = t.regs.fmtSrate ∧ t.regs.cfgLsbf = t.regs.fmtLsbf ∧ t.regs.cfgTotal = t.regs.fmtTotal ∧
      t.regs.cfgBlksz = t.regs.rdBlksz ∧ f.numChannels = 2 ∧ t.regs.rdFilled = 0 ∧ t.regs.rdPos = 0 ∧
      t.regs.rdEmitted = 0 ∧ t.regs.result = 0 ∧ t.regs.statusErr = 0

/-- R185: entering `Terminated`, on whatever path, the host gives up its script and releases everything it holds, the last
acquired first; the sink is closed and the source yields nothing more (what a released source does is the model's choice,
log 26). -/
def Obligations.TerminationReleasesEverything : Prop :=
  ∀ (s t : State) (o : RunOutcome), (∀ o', s.agent.phase ≠ .terminated o') → step s = .next t →
    t.agent.phase = .terminated o →
    t.agent.todo = [] ∧ t.agent.held = [] ∧ t.agent.released = s.agent.released ++ s.agent.held ∧
      t.sink.config = none ∧ ∀ k, t.src.read k = some ([], t.src)

/-- R180, R185: `Terminated` is final: no step leaves it or changes how the run ended. -/
def Obligations.TerminatedIsFinal : Prop :=
  ∀ (s t : State) (o : RunOutcome), s.agent.phase = .terminated o → step s = .next t →
    t.agent.phase = .terminated o

/-- R183: negotiation asks the sink for `FMT_SRATE / 32` frames per second of two channels in 8-byte frames; a sink that
refuses ends the run before it starts streaming. A sink with no answer laid down accepts: the model's choice (log 17). -/
def Obligations.NegotiationConfiguresTheSink : Prop :=
  ∀ (s : State) (rest : List HostAction), s.agent.todo = .negotiate :: rest → s.agent.phase = .negotiating →
    ∃ t, step s = .next t ∧ t.regs = s.regs ∧
      (s.sink.configAnswers.headD true = true →
        t.agent.phase = .streaming ∧ t.agent.todo = rest ∧
        ∃ k, t.sink.config = some k ∧ k.rate = s.regs.fmtSrate.toNat / 32 ∧ k.channels = 2 ∧ k.frameBytes = 8) ∧
      (s.sink.configAnswers.headD true = false →
        t.agent.phase = .terminated .sinkNegotiationError ∧ t.agent.todo = [] ∧ t.sink.config = none)

/-- R184, R185: the host hands `OUT[0 .. 2r-1]` to the sink as `r / 4` frames; fewer frames accepted, or an error, is
fatal and releases the sink. That all the bytes are on record whatever the sink accepts, that a sink with no answer laid
down accepts them all, and that one that answers more frames than submitted does not end the run, where R202 says mismatch
and R184 fewer, is the model's choice (log 17). -/
def Obligations.ShortSinkWriteIsFatal : Prop :=
  ∀ (s : State) (rest : List HostAction), s.agent.todo = .writeFramesR :: rest → s.agent.phase = .streaming →
    2 * s.agent.r ≤ s.build.outCap →
    ∃ t, step s = .next t ∧ t.sink.handed = s.sink.handed ++ s.readBytes .out 0 (2 * s.agent.r) ∧
      ((∃ k, s.sink.accepts (s.agent.r / 4) = some k ∧ s.agent.r / 4 ≤ k) →
        t.agent.phase = .streaming ∧ t.agent.todo = rest ∧ t.sink.config = s.sink.config) ∧
      ((∀ k, s.sink.accepts (s.agent.r / 4) = some k → k < s.agent.r / 4) →
        t.agent.phase = .terminated .sinkWriteError ∧ t.agent.todo = [] ∧ t.sink.config = none)
end

