-- ==== Sys2Proof/Laws/Memory.lean ====
section
/-! SUPPORT. The laws of one memory: a read after a write gives the value written, a write leaves every other address
alone, and every write keeps the canonical form and the bound on the addresses (20_memory.md R61, R62). -/

namespace Sys2Proof.Machine

@[simp] theorem Memory.get?_nil (a : Nat) : Memory.get? [] a = none := rfl

@[simp] theorem Memory.writeList_nil (m : Memory) (a : Nat) : m.writeList a [] = m := by
  unfold Memory.writeList; rfl

theorem Memory.writeList_cons (m : Memory) (a : Nat) (b : Byte) (bs : List Byte) :
    m.writeList a (b :: bs) = (m.write a b).writeList (a + 1) bs := rfl

/-- Reading after a write: the written byte at its address, the old contents elsewhere. -/
theorem Memory.get?_write (m : Memory) (a : Nat) (b : Byte) (x : Nat) :
    (m.write a b).get? x = if x = a then some b else m.get? x := by
  induction m with
  | nil => simp [Memory.write, Memory.get?]
  | cons c rest ih =>
    obtain ⟨y, v⟩ := c
    simp only [Memory.write]
    split
    · simp [Memory.get?]
    · split
      · subst_vars
        simp only [Memory.get?]
        split <;> simp_all
      · simp only [Memory.get?, ih]
        split <;> split <;> simp_all

/-- What stands in a memory after a write: the new cell and old ones. -/
theorem Memory.mem_write {m : Memory} {a : Nat} {b : Byte} {c : Host.Cell} (h : c ∈ m.write a b) :
    c = (a, b) ∨ c ∈ m := by
  induction m with
  | nil => left; simpa [Memory.write] using h
  | cons d rest ih =>
    obtain ⟨y, v⟩ := d
    simp only [Memory.write] at h
    split at h
    · simpa using h
    · split at h
      · simp only [List.mem_cons] at h ⊢
        tauto
      · simp only [List.mem_cons] at h ⊢
        rcases h with h | h
        · exact .inr (.inl h)
        · rcases ih h with h | h
          · exact .inl h
          · exact .inr (.inr h)

/-- A write keeps the canonical form. -/
theorem Memory.write_wf {m : Memory} (hm : m.wf) (a : Nat) (b : Byte) : (m.write a b).wf := by
  induction m with
  | nil => simp [Memory.write, Memory.wf]
  | cons c rest ih =>
    obtain ⟨y, v⟩ := c
    have hrest : Memory.wf rest := (List.pairwise_cons.1 hm).2
    have hlt : ∀ c ∈ rest, y < c.1 := (List.pairwise_cons.1 hm).1
    simp only [Memory.write]
    split
    · rename_i h
      refine List.pairwise_cons.2 ⟨fun c hc => ?_, hm⟩
      simp only [List.mem_cons] at hc
      rcases hc with rfl | hc
      · exact h
      · exact Nat.lt_trans h (hlt c hc)
    · split
      · rename_i h
        subst h
        exact List.pairwise_cons.2 ⟨hlt, hrest⟩
      · rename_i h1 h2
        refine List.pairwise_cons.2 ⟨fun c hc => ?_, ih hrest⟩
        rcases Memory.mem_write hc with rfl | hc
        · show y < a
          omega
        · exact hlt c hc

theorem Memory.writeList_wf {m : Memory} (hm : m.wf) (a : Nat) (bs : List Byte) : (m.writeList a bs).wf := by
  induction bs generalizing m a with
  | nil => simpa using hm
  | cons b bs ih => exact ih (Memory.write_wf hm a b) (a + 1)

/-- Reading after a write of consecutive bytes. -/
theorem Memory.get?_writeList (m : Memory) (a : Nat) (bs : List Byte) (x : Nat) :
    (m.writeList a bs).get? x = if a ≤ x ∧ x < a + bs.length then bs[x - a]? else m.get? x := by
  induction bs generalizing m a with
  | nil => simp
  | cons b bs ih =>
    rw [Memory.writeList_cons, ih, Memory.get?_write]
    by_cases h1 : a + 1 ≤ x ∧ x < a + 1 + bs.length
    · have h2 : a ≤ x ∧ x < a + (b :: bs).length := by simp; omega
      have h3 : x - a = (x - (a + 1)) + 1 := by omega
      rw [if_pos h1, if_pos h2, h3, List.getElem?_cons_succ]
    · rw [if_neg h1]
      by_cases h2 : x = a
      · subst h2
        simp
      · have h3 : ¬(a ≤ x ∧ x < a + (b :: bs).length) := by simp; omega
        rw [if_neg h2, if_neg h3]

/-- Every listed address after a write is a written or an old one. -/
theorem Memory.mem_writeList {m : Memory} {a : Nat} {bs : List Byte} {c : Host.Cell} (h : c ∈ m.writeList a bs) :
    (a ≤ c.1 ∧ c.1 < a + bs.length) ∨ c ∈ m := by
  induction bs generalizing m a with
  | nil => right; simpa using h
  | cons b bs ih =>
    rw [Memory.writeList_cons] at h
    rcases ih h with h | h
    · left; simp; omega
    · rcases Memory.mem_write h with rfl | h
      · left; simp
      · exact .inr h

end Sys2Proof.Machine
end

