-- ==== Sys2Proof/Laws/State.lean ====
section
/-! SUPPORT. The state's small laws: one lemma per field per update, so that no later proof unfolds a record update; and
the byte-level laws of `readByte` after `writeBytes` (20_memory.md R62, R71, R74). -/

namespace Sys2Proof.Machine

/-- A channel number is 0 or 1: `N_CH = 2` (R28). -/
theorem channel_cases (c : Fin 2) : c = 0 ∨ c = 1 := by omega

@[simp] theorem State.mem_buf (s : State) : s.mem .buf = s.buf := rfl
@[simp] theorem State.mem_ch0 (s : State) : s.mem (.ch 0) = s.ch0 := rfl
@[simp] theorem State.mem_ch1 (s : State) : s.mem (.ch 1) = s.ch1 := rfl
@[simp] theorem State.mem_out (s : State) : s.mem .out = s.out := rfl

@[simp] theorem State.setMem_mem (s : State) (sp : Space) (m : Memory) : (s.setMem sp m).mem sp = m := by
  match sp with
  | .buf | .ch 0 | .ch 1 | .out => rfl

theorem State.setMem_mem_ne (s : State) {sp sq : Space} (m : Memory) (h : sq ≠ sp) :
    (s.setMem sp m).mem sq = s.mem sq := by
  match sp, sq, h with
  | .buf, .ch 0, _ | .buf, .ch 1, _ | .buf, .out, _ => rfl
  | .ch 0, .buf, _ | .ch 0, .ch 1, _ | .ch 0, .out, _ => rfl
  | .ch 1, .buf, _ | .ch 1, .ch 0, _ | .ch 1, .out, _ => rfl
  | .out, .buf, _ | .out, .ch 0, _ | .out, .ch 1, _ => rfl
  | .buf, .buf, h | .ch 0, .ch 0, h | .ch 1, .ch 1, h | .out, .out, h => exact absurd rfl h

@[simp] theorem State.setMem_build (s : State) (sp : Space) (m : Memory) : (s.setMem sp m).build = s.build := by
  match sp with
  | .buf | .ch 0 | .ch 1 | .out => rfl
@[simp] theorem State.setMem_regs (s : State) (sp : Space) (m : Memory) : (s.setMem sp m).regs = s.regs := by
  match sp with
  | .buf | .ch 0 | .ch 1 | .out => rfl
@[simp] theorem State.setMem_src (s : State) (sp : Space) (m : Memory) : (s.setMem sp m).src = s.src := by
  match sp with
  | .buf | .ch 0 | .ch 1 | .out => rfl
@[simp] theorem State.setMem_use (s : State) (sp : Space) (m : Memory) : (s.setMem sp m).use = s.use := by
  match sp with
  | .buf | .ch 0 | .ch 1 | .out => rfl
@[simp] theorem State.setMem_agent (s : State) (sp : Space) (m : Memory) : (s.setMem sp m).agent = s.agent := by
  match sp with
  | .buf | .ch 0 | .ch 1 | .out => rfl
@[simp] theorem State.setMem_sink (s : State) (sp : Space) (m : Memory) : (s.setMem sp m).sink = s.sink := by
  match sp with
  | .buf | .ch 0 | .ch 1 | .out => rfl
@[simp] theorem State.setMem_draws (s : State) (sp : Space) (m : Memory) : (s.setMem sp m).draws = s.draws := by
  match sp with
  | .buf | .ch 0 | .ch 1 | .out => rfl
@[simp] theorem State.setMem_epoch (s : State) (sp : Space) (m : Memory) : (s.setMem sp m).epoch = s.epoch := by
  match sp with
  | .buf | .ch 0 | .ch 1 | .out => rfl

@[simp] theorem State.writeBytes_build (s : State) (sp : Space) (a : Nat) (bs : List Byte) :
    (s.writeBytes sp a bs).build = s.build := State.setMem_build ..
@[simp] theorem State.writeBytes_regs (s : State) (sp : Space) (a : Nat) (bs : List Byte) :
    (s.writeBytes sp a bs).regs = s.regs := State.setMem_regs ..
@[simp] theorem State.writeBytes_src (s : State) (sp : Space) (a : Nat) (bs : List Byte) :
    (s.writeBytes sp a bs).src = s.src := State.setMem_src ..
@[simp] theorem State.writeBytes_use (s : State) (sp : Space) (a : Nat) (bs : List Byte) :
    (s.writeBytes sp a bs).use = s.use := State.setMem_use ..
@[simp] theorem State.writeBytes_agent (s : State) (sp : Space) (a : Nat) (bs : List Byte) :
    (s.writeBytes sp a bs).agent = s.agent := State.setMem_agent ..
@[simp] theorem State.writeBytes_sink (s : State) (sp : Space) (a : Nat) (bs : List Byte) :
    (s.writeBytes sp a bs).sink = s.sink := State.setMem_sink ..
@[simp] theorem State.writeBytes_draws (s : State) (sp : Space) (a : Nat) (bs : List Byte) :
    (s.writeBytes sp a bs).draws = s.draws := State.setMem_draws ..
@[simp] theorem State.writeBytes_epoch (s : State) (sp : Space) (a : Nat) (bs : List Byte) :
    (s.writeBytes sp a bs).epoch = s.epoch := State.setMem_epoch ..

@[simp] theorem State.writeBytes_mem (s : State) (sp : Space) (a : Nat) (bs : List Byte) :
    (s.writeBytes sp a bs).mem sp = (s.mem sp).writeList a bs := State.setMem_mem ..

/-- The spaces are disjoint: a write to one leaves every other as it was (R60, R71). -/
theorem State.writeBytes_mem_ne (s : State) {sp sq : Space} (a : Nat) (bs : List Byte) (h : sq ≠ sp) :
    (s.writeBytes sp a bs).mem sq = s.mem sq := State.setMem_mem_ne _ _ h

@[simp] theorem State.writeBytes_nil (s : State) (sp : Space) (a : Nat) : s.writeBytes sp a [] = s := by
  match sp with
  | .buf | .ch 0 | .ch 1 | .out => rfl

@[simp] theorem State.setOutcome_mem (s : State) (v : Nat) (e : BitVec 8) (sp : Space) :
    (s.setOutcome v e).mem sp = s.mem sp := by
  match sp with
  | .buf | .ch 0 | .ch 1 | .out => rfl
@[simp] theorem State.setOutcome_build (s : State) (v : Nat) (e : BitVec 8) : (s.setOutcome v e).build = s.build := rfl
@[simp] theorem State.setOutcome_src (s : State) (v : Nat) (e : BitVec 8) : (s.setOutcome v e).src = s.src := rfl
@[simp] theorem State.setOutcome_use (s : State) (v : Nat) (e : BitVec 8) : (s.setOutcome v e).use = s.use := rfl
@[simp] theorem State.setOutcome_agent (s : State) (v : Nat) (e : BitVec 8) : (s.setOutcome v e).agent = s.agent := rfl
@[simp] theorem State.setOutcome_sink (s : State) (v : Nat) (e : BitVec 8) : (s.setOutcome v e).sink = s.sink := rfl
@[simp] theorem State.setOutcome_draws (s : State) (v : Nat) (e : BitVec 8) : (s.setOutcome v e).draws = s.draws := rfl
@[simp] theorem State.setOutcome_epoch (s : State) (v : Nat) (e : BitVec 8) : (s.setOutcome v e).epoch = s.epoch := rfl
@[simp] theorem State.setOutcome_regs (s : State) (v : Nat) (e : BitVec 8) :
    (s.setOutcome v e).regs = { s.regs with result := BitVec.ofNat 32 v, statusErr := e } := rfl

@[simp] theorem State.complete_eq (s : State) (v : Nat) : s.complete v = s.setOutcome v 0 := rfl
@[simp] theorem State.raiseFramingError_eq (s : State) : s.raiseFramingError = s.setOutcome 0 1 := rfl

/-- What a byte reads as depends on its own memory and the epoch alone. -/
theorem State.readByte_congr {s t : State} {sp : Space} (hm : t.mem sp = s.mem sp) (he : t.epoch = s.epoch) (a : Nat) :
    t.readByte sp a = s.readByte sp a := by
  simp [State.readByte, hm, he]

@[simp] theorem State.setOutcome_readByte (s : State) (v : Nat) (e : BitVec 8) (sp : Space) (a : Nat) :
    (s.setOutcome v e).readByte sp a = s.readByte sp a := State.readByte_congr (by simp) (by simp) a

@[simp] theorem State.readBytes_length (s : State) (sp : Space) (a n : Nat) : (s.readBytes sp a n).length = n := by
  simp [State.readBytes]

@[simp] theorem State.freeBytes_length (s : State) (n : Nat) : (s.freeBytes n).length = n := by
  simp [State.freeBytes]

theorem State.readBytes_getElem? (s : State) (sp : Space) (a n k : Nat) (h : k < n) :
    (s.readBytes sp a n)[k]? = some (s.readByte sp (a + k)) := by
  simp [State.readBytes, h]

/-- A read after a write of consecutive bytes: the byte written there, else the old one (R62, R74). -/
theorem State.readByte_writeBytes (s : State) (sp : Space) (a : Nat) (bs : List Byte) (x : Nat) :
    (s.writeBytes sp a bs).readByte sp x = if a ≤ x ∧ x < a + bs.length then bs.getD (x - a) 0 else s.readByte sp x := by
  unfold State.readByte
  rw [State.writeBytes_mem, Memory.get?_writeList, State.writeBytes_epoch]
  split
  · rename_i h
    have : x - a < bs.length := by omega
    simp [List.getD, this]
  · rfl

/-- A write to one memory does not show in another (R60, R71). -/
theorem State.readByte_writeBytes_ne (s : State) {sp sq : Space} (a : Nat) (bs : List Byte) (x : Nat) (h : sq ≠ sp) :
    (s.writeBytes sp a bs).readByte sq x = s.readByte sq x :=
  State.readByte_congr (State.writeBytes_mem_ne s a bs h) (by simp) x

end Sys2Proof.Machine
end

