-- ==== Sys2Proof/Laws/BlockReader.lean ====
section
/-! SUPPORT. The laws of the block reader: what `SrcRead` can answer (20_memory.md R66), what one refill (R133) and one
copy (R134) can do, and what the whole loop of `READ` (41_block_reader.md R132) leaves alone. Each is said once here;
proofs about `READ` cite it. -/

namespace Sys2Proof.Machine

/-- The bytes laid down, when the stream ends with them. -/
theorem Source.bytesAt_of_ends {src : Source} (h : src.more = none) (pos n : Nat) :
    src.bytesAt pos n = (src.stream.drop pos).take n := by simp [Source.bytesAt, h]

/-- The bytes laid down, as far as they go. -/
theorem Source.bytesAt_of_laid {src : Source} {pos n : Nat} (h : pos + n ≤ src.stream.length) :
    src.bytesAt pos n = (src.stream.drop pos).take n := by
  have hl : ((src.stream.drop pos).take n).length = n := by simp only [List.length_take, List.length_drop]; omega
  unfold Source.bytesAt
  split
  · rfl
  · simp [hl]

/-- A stream that never ends has every byte. -/
theorem Source.bytesAt_length_of_more {src : Source} (h : src.more ≠ none) (pos n : Nat) :
    (src.bytesAt pos n).length = n := by
  unfold Source.bytesAt
  split
  · contradiction
  · simp

theorem Source.bytesAt_length_le (src : Source) (pos n : Nat) : (src.bytesAt pos n).length ≤ n := by
  unfold Source.bytesAt
  split <;> simp

/-- Fewer bytes from the same position are a prefix. -/
theorem Source.bytesAt_take (src : Source) (pos n : Nat) :
    src.bytesAt pos n = src.bytesAt pos (src.bytesAt pos n).length := by
  cases h : src.more with
  | none => rw [Source.bytesAt_of_ends h, Source.bytesAt_of_ends h, List.take_eq_take_iff]; simp
  | some k => rw [Source.bytesAt_length_of_more (by simp [h])]

theorem Source.willing_le (src : Source) (k : Nat) : src.willing k ≤ k := by
  unfold Source.willing
  split <;> omega

/-- `src'` is `src` with a cursor and answers of its own. -/
structure SourceKeeps (src src' : Source) : Prop where
  stream     : src'.stream = src.stream
  more       : src'.more = src.more
  thereafter : src'.thereafter = src.thereafter
  discarded  : src'.discarded = src.discarded
  fit        : src'.fit = src.fit
  answers    : ∀ a ∈ src'.answers, a ∈ src.answers

theorem SourceKeeps.refl (src : Source) : SourceKeeps src src := ⟨rfl, rfl, rfl, rfl, rfl, fun _ h => h⟩

theorem SourceKeeps.trans {a b c : Source} (h1 : SourceKeeps a b) (h2 : SourceKeeps b c) : SourceKeeps a c :=
  ⟨h2.stream.trans h1.stream, h2.more.trans h1.more, h2.thereafter.trans h1.thereafter,
    h2.discarded.trans h1.discarded, h2.fit.trans h1.fit, fun x h => h1.answers x (h2.answers x h)⟩

theorem SourceKeeps.useless {src src' : Source} (h : SourceKeeps src src') : src'.useless ↔ src.useless := by
  simp [Source.useless, h.more, h.thereafter]

/-- All that `SrcRead(K)` can answer (R66): at most `K` bytes, the next ones of the stream, with the cursor advanced
past them; one laid-down answer is used up, if there is one and `K` is not 0. -/
theorem Source.read_spec {src src' : Source} {k : Nat} {bytes : List Byte} (h : src.read k = some (bytes, src')) :
    bytes.length ≤ k ∧ bytes = src.bytesAt src.cursor bytes.length ∧ src'.cursor = src.cursor + bytes.length ∧
      SourceKeeps src src' ∧
      (src'.answers = src.answers ∧ (k = 0 ∨ src.answers = [] ∧ bytes = src.bytesAt src.cursor (src.willing k)) ∨
        src'.answers.length < src.answers.length) := by
  unfold Source.read at h
  split at h
  · simp only [Option.some.injEq, Prod.mk.injEq] at h
    obtain ⟨rfl, rfl⟩ := h
    refine ⟨by simp, ?_, by simp, SourceKeeps.refl _, .inl ⟨rfl, .inl ‹_›⟩⟩
    exact (List.eq_nil_of_length_eq_zero (Nat.le_zero.1 (src.bytesAt_length_le _ 0))).symm
  · split at h
    · rename_i heq
      simp only [Option.some.injEq, Prod.mk.injEq, Source.yield] at h
      obtain ⟨rfl, rfl⟩ := h
      exact ⟨(src.bytesAt_length_le _ _).trans (src.willing_le k), src.bytesAt_take _ _, rfl, ⟨rfl, rfl, rfl, rfl, rfl, fun _ h => h⟩,
        .inl ⟨rfl, .inr ⟨heq, rfl⟩⟩⟩
    · rename_i limit rest heq
      simp only [Option.some.injEq, Prod.mk.injEq, Source.yield] at h
      obtain ⟨rfl, rfl⟩ := h
      refine ⟨(Source.bytesAt_length_le ..).trans (by omega), Source.bytesAt_take .., rfl,
        ⟨rfl, rfl, rfl, rfl, rfl, fun a h => ?_⟩, .inr (by simp [heq])⟩
      simp only [heq, List.mem_cons]
      exact .inr h
    · simp at h

/-- A source that gives all it can (R67). -/
theorem Source.read_reference {src : Source} (h : src.answers = []) (ht : src.thereafter = none) (k : Nat) (hk : k ≠ 0) :
    src.read k = some (src.yield k) := by
  simp [Source.read, Source.willing, h, ht, hk]

/-- A source that answers at all answers every request. -/
theorem Source.read_isSome {src : Source} (h : ∀ a ∈ src.answers, a ≠ SourceAnswer.never) (k : Nat) :
    ∃ p, src.read k = some p := by
  unfold Source.read
  split
  · exact ⟨_, rfl⟩
  · split
    · exact ⟨_, rfl⟩
    · exact ⟨_, rfl⟩
    · rename_i heq
      exact absurd rfl (h .never (by simp [heq]))

/-- A refill that brings data: the source's answer, and the state it leaves (R133). -/
theorem State.refill_data {s t : State} (h : s.refill = .data t) :
    ∃ bytes src, s.src.read (2 * s.regs.rdBlksz.toNat) = some (bytes, src) ∧ bytes ≠ [] ∧
      bytes.length ≤ s.build.size .buf ∧ t = s.refilled bytes src := by
  unfold State.refill at h
  split at h
  · simp at h
  · rename_i bytes src heq
    split at h
    · simp at h
    · rename_i hne
      split at h
      · rename_i hr
        refine ⟨bytes, src, heq, hne, ?_, by simpa using h.symm⟩
        simp only [State.inRange, Nat.zero_add, Bool.or_eq_true, beq_iff_eq, List.length_eq_zero_iff,
          decide_eq_true_eq] at hr
        exact hr.resolve_left hne
      · simp at h

/-- A refill that brings none: only the source has moved (R135). -/
theorem State.refill_empty {s t : State} (h : s.refill = .empty t) :
    ∃ src, s.src.read (2 * s.regs.rdBlksz.toNat) = some ([], src) ∧ t = { s with src := src } := by
  unfold State.refill at h
  split at h
  · simp at h
  · rename_i bytes src heq
    split at h
    · rename_i hne
      subst hne
      exact ⟨src, heq, by simpa using h.symm⟩
    · split at h <;> simp at h

/-- A refill from a source that yields `bytes`, when they fit `BUF`. -/
theorem State.refill_eq_data {s : State} {bytes : List Byte} {src : Source}
    (h : s.src.read (2 * s.regs.rdBlksz.toNat) = some (bytes, src)) (hne : bytes ≠ [])
    (hfit : bytes.length ≤ s.build.size .buf) : s.refill = .data (s.refilled bytes src) := by
  have : s.inRange .buf 0 bytes.length = true := by
    simp only [State.inRange, Nat.zero_add, Bool.or_eq_true, decide_eq_true_eq]
    exact .inr hfit
  simp [State.refill, h, hne, this]

theorem State.refill_eq_empty {s : State} {src : Source}
    (h : s.src.read (2 * s.regs.rdBlksz.toNat) = some ([], src)) : s.refill = .empty { s with src := src } := by
  simp [State.refill, h]

/-! What `READ` leaves alone: `ReadKeeps lo hi s t` says that `t` differs from `s` in the reader's cursor registers, the
source, `BUF`, and the bytes `lo .. hi-1` of the two `CH`, and in nothing else. -/

/-- The frame of the loop of `READ`. -/
structure ReadKeeps (lo hi : Nat) (s t : State) : Prop where
  build     : t.build = s.build
  regs      : t.regs = { s.regs with rdFilled := t.regs.rdFilled, rdPos := t.regs.rdPos }
  out       : t.out = s.out
  ch        : ∀ (c : Fin 2) (a : Nat), a < lo ∨ hi ≤ a → t.readByte (.ch c) a = s.readByte (.ch c) a
  src       : SourceKeeps s.src t.src
  use       : t.use = s.use
  agent     : t.agent = s.agent
  sink      : t.sink = s.sink
  draws     : t.draws = s.draws
  epoch     : t.epoch = s.epoch

theorem ReadKeeps.refl (lo hi : Nat) (s : State) : ReadKeeps lo hi s s := by
  constructor <;> simp [SourceKeeps.refl]

/-- The same as one equation: the fields of `t` that may differ from those of `s`. -/
theorem ReadKeeps.eq {lo hi : Nat} {s t : State} (h : ReadKeeps lo hi s t) :
    t = { s with
      buf := t.buf, ch0 := t.ch0, ch1 := t.ch1
      src := { s.src with cursor := t.src.cursor, answers := t.src.answers }
      regs := { s.regs with rdFilled := t.regs.rdFilled, rdPos := t.regs.rdPos } } := by
  obtain ⟨h1, h2, h3, -, ⟨h4, h5, h6, h7, h13, -⟩, h8, h9, h10, h11, h12⟩ := h
  obtain ⟨b, r, m0, m1, m2, m3, ⟨a0, a1, a2, a3, a4, a5, a6⟩, u, ag, k, d, e⟩ := t
  simp only at h1 h2 h3 h4 h5 h6 h7 h8 h9 h10 h11 h12 h13
  simp only [State.mk.injEq, Source.mk.injEq, true_and]
  exact ⟨h1, h2, h3, ⟨h4, h5, h6, h7, h13⟩, h8, h9, h10, h11, h12⟩

/-- The count served and the declared count are no business of the loop: `RD_EMITTED` is written after it (R136). -/
theorem ReadKeeps.emitted {lo hi : Nat} {s t : State} (h : ReadKeeps lo hi s t) :
    t.regs.rdEmitted = s.regs.rdEmitted := by rw [h.regs]

theorem ReadKeeps.total {lo hi : Nat} {s t : State} (h : ReadKeeps lo hi s t) :
    t.regs.fmtTotal = s.regs.fmtTotal := by rw [h.regs]

theorem ReadKeeps.blksz {lo hi : Nat} {s t : State} (h : ReadKeeps lo hi s t) :
    t.regs.rdBlksz = s.regs.rdBlksz := by rw [h.regs]

theorem ReadKeeps.trans {lo hi : Nat} {s t u : State} (h1 : ReadKeeps lo hi s t) (h2 : ReadKeeps lo hi t u) :
    ReadKeeps lo hi s u where
  build := h2.build.trans h1.build
  regs := by rw [h2.regs, h1.regs]
  out := h2.out.trans h1.out
  ch c a h := (h2.ch c a h).trans (h1.ch c a h)
  src := h1.src.trans h2.src
  use := h2.use.trans h1.use
  agent := h2.agent.trans h1.agent
  sink := h2.sink.trans h1.sink
  draws := h2.draws.trans h1.draws
  epoch := h2.epoch.trans h1.epoch

theorem ReadKeeps.widen {lo hi lo' hi' : Nat} {s t : State} (h : ReadKeeps lo hi s t) (h1 : lo' ≤ lo) (h2 : hi ≤ hi') :
    ReadKeeps lo' hi' s t :=
  { h with ch := fun c a ha => h.ch c a (by omega) }

theorem State.refilled_keeps {s : State} {bytes : List Byte} {src : Source} {k : Nat}
    (h : s.src.read k = some (bytes, src)) (lo hi : Nat) : ReadKeeps lo hi s (s.refilled bytes src) := by
  obtain ⟨-, -, -, h1, -⟩ := Source.read_spec h
  constructor
  case ch => intro c a _; exact State.readByte_congr (by
    rw [State.refilled, State.writeBytes_mem_ne _ _ _ (by simp)]
    rcases channel_cases c with rfl | rfl <;> rfl) (by simp [State.refilled]) a
  case out => rfl
  case src => exact h1
  all_goals simp_all [State.refilled]

theorem State.refillIfExhausted_keeps {s t : State} (lo hi : Nat) (h : s.refillIfExhausted = .data t) :
    ReadKeeps lo hi s t := by
  unfold State.refillIfExhausted at h
  split at h
  · obtain ⟨bytes, src, h1, -, -, rfl⟩ := State.refill_data h
    exact State.refilled_keeps h1 lo hi
  · simp only [Refill.data.injEq] at h
    exact h ▸ ReadKeeps.refl ..

theorem State.refillIfExhausted_empty_keeps {s t : State} (lo hi : Nat) (h : s.refillIfExhausted = .empty t) :
    ReadKeeps lo hi s t := by
  unfold State.refillIfExhausted at h
  split at h
  · obtain ⟨src, h1, rfl⟩ := State.refill_empty h
    obtain ⟨-, -, -, h2, -⟩ := Source.read_spec h1
    exact ⟨rfl, rfl, rfl, fun c a _ => State.readByte_congr (by rcases channel_cases c with rfl | rfl <;> rfl) rfl a,
      h2, rfl, rfl, rfl, rfl, rfl⟩
  · simp at h

@[simp] theorem State.copyOut_regs (s : State) (ret m : Nat) :
    (s.copyOut ret m).regs = { s.regs with rdPos := BitVec.ofNat 32 (s.regs.rdPos.toNat + m) } := rfl
@[simp] theorem State.copyOut_build (s : State) (ret m : Nat) : (s.copyOut ret m).build = s.build := rfl
@[simp] theorem State.copyOut_src (s : State) (ret m : Nat) : (s.copyOut ret m).src = s.src := rfl
@[simp] theorem State.copyOut_use (s : State) (ret m : Nat) : (s.copyOut ret m).use = s.use := rfl
@[simp] theorem State.copyOut_agent (s : State) (ret m : Nat) : (s.copyOut ret m).agent = s.agent := rfl
@[simp] theorem State.copyOut_sink (s : State) (ret m : Nat) : (s.copyOut ret m).sink = s.sink := rfl
@[simp] theorem State.copyOut_draws (s : State) (ret m : Nat) : (s.copyOut ret m).draws = s.draws := rfl
@[simp] theorem State.copyOut_epoch (s : State) (ret m : Nat) : (s.copyOut ret m).epoch = s.epoch := rfl
@[simp] theorem State.copyOut_buf (s : State) (ret m : Nat) : (s.copyOut ret m).buf = s.buf := rfl
@[simp] theorem State.copyOut_out (s : State) (ret m : Nat) : (s.copyOut ret m).out = s.out := rfl
theorem State.copyOut_ch0 (s : State) (ret m : Nat) :
    (s.copyOut ret m).ch0 = s.ch0.writeList ret (s.readBytes .buf (s.unread 0) m) := rfl
theorem State.copyOut_ch1 (s : State) (ret m : Nat) :
    (s.copyOut ret m).ch1 = s.ch1.writeList ret (s.readBytes .buf (s.unread 1) m) := rfl

/-- The copy step, byte by byte (R134): `CH[c][ret + k]` takes `BUF[c * RD_BLKSZ + RD_POS + k]` for `k < m`, the rest of
`CH[c]` keeps its bytes. -/
theorem State.copyOut_readByte (s : State) (ret m : Nat) (c : Fin 2) (a : Nat) :
    (s.copyOut ret m).readByte (.ch c) a =
      if ret ≤ a ∧ a < ret + m then s.readByte .buf (s.unread c + (a - ret)) else s.readByte (.ch c) a := by
  have key : (s.copyOut ret m).readByte (.ch c) a =
      (s.writeBytes (.ch c) ret (s.readBytes .buf (s.unread c) m)).readByte (.ch c) a := by
    rcases channel_cases c with rfl | rfl <;> rfl
  rw [key, State.readByte_writeBytes, State.readBytes_length]
  split
  · rename_i h
    have : a - ret < m := by omega
    simp [State.readBytes, List.getD, this]
  · rfl

theorem State.copyOut_keeps (s : State) (ret m : Nat) : ReadKeeps ret (ret + m) s (s.copyOut ret m) where
  build := rfl
  regs := rfl
  out := rfl
  ch c a h := by rw [State.copyOut_readByte, if_neg (by omega)]
  src := SourceKeeps.refl _
  use := rfl
  agent := rfl
  sink := rfl
  draws := rfl
  epoch := rfl

theorem State.copyCount_le (s : State) (rem : Nat) : s.copyCount rem ≤ rem := Nat.min_le_left ..

/-- The loop with nothing left to serve. -/
@[simp] theorem readLoop_done (fuel ret : Nat) (s : State) : readLoop fuel 0 ret s = .served ret s := by
  cases fuel <;> rfl

/-- One iteration of the loop (R132). -/
theorem readLoop_step (fuel rem ret : Nat) (s : State) :
    readLoop (fuel + 1) (rem + 1) ret s =
      match s.refillIfExhausted with
      | .stuck f => .stuck f
      | .empty s1 => .empty s1
      | .data s1 =>
        if s1.inRange .buf (s1.unread 1) (s1.copyCount (rem + 1)) then
          readLoop fuel (rem + 1 - s1.copyCount (rem + 1)) (ret + s1.copyCount (rem + 1))
            (s1.copyOut ret (s1.copyCount (rem + 1)))
        else .stuck (.noSuchAddress .buf (s1.unread 1 + s1.copyCount (rem + 1) - 1)) := rfl

/-- What the loop of `READ` leaves alone, when it serves the request or meets the end of the stream: everything outside
the reader's cursor registers, the source, `BUF` and the bytes of `CH` it was asked for; and a served request has been
copied in full (R132, R143). -/
theorem readLoop_keeps (fuel rem ret : Nat) (s : State) :
    match readLoop fuel rem ret s with
    | .served k t => k = ret + rem ∧ ReadKeeps ret (ret + rem) s t
    | .empty t => ReadKeeps ret (ret + rem) s t
    | .stuck _ => True := by
  induction fuel generalizing rem ret s with
  | zero =>
    cases rem with
    | zero => simpa using ReadKeeps.refl ..
    | succ rem => trivial
  | succ fuel ih =>
    cases rem with
    | zero => simpa using ReadKeeps.refl ..
    | succ rem =>
      rw [readLoop_step]
      cases hr : s.refillIfExhausted with
      | stuck f => trivial
      | empty t => exact State.refillIfExhausted_empty_keeps _ _ hr
      | data s1 =>
        have h1 := State.refillIfExhausted_keeps ret (ret + (rem + 1)) hr
        have hm := s1.copyCount_le (rem + 1)
        dsimp only
        generalize s1.copyCount (rem + 1) = m at hm ⊢
        cases s1.inRange .buf (s1.unread 1) m with
        | false => trivial
        | true =>
          have h2 : ReadKeeps ret (ret + (rem + 1)) s (s1.copyOut ret m) :=
            h1.trans ((s1.copyOut_keeps ret m).widen (Nat.le_refl _) (by omega))
          have h3 := ih (rem + 1 - m) (ret + m) (s1.copyOut ret m)
          simp only [if_true]
          cases hl : readLoop fuel (rem + 1 - m) (ret + m) (s1.copyOut ret m) with
          | served k t =>
            simp only [hl] at h3
            exact ⟨by omega, h2.trans (h3.2.widen (by omega) (by omega))⟩
          | empty t =>
            simp only [hl] at h3
            exact h2.trans (h3.widen (by omega) (by omega))
          | stuck f => trivial

end Sys2Proof.Machine
end

