-- ==== Sys2Proof/Laws/ReaderInvariant.lean ====
section
/-! SUPPORT. The invariants of ReaderState along the loop of `READ` (10_state.md R31): a refill and a copy keep them, so
does the whole loop, and under them the loop has fuel enough and never leaves `BUF` (41_block_reader.md R141). -/

namespace Sys2Proof.Machine

theorem Word32.toNat_ofNat_of_lt {n : Nat} (h : n < 2 ^ 32) : (BitVec.ofNat 32 n).toNat = n := by
  rw [BitVec.toNat_ofNat, Nat.mod_eq_of_lt h]

@[simp] theorem State.refilled_build (s : State) (bytes : List Byte) (src : Source) :
    (s.refilled bytes src).build = s.build := rfl
@[simp] theorem State.refilled_src (s : State) (bytes : List Byte) (src : Source) :
    (s.refilled bytes src).src = src := rfl
@[simp] theorem State.refilled_regs (s : State) (bytes : List Byte) (src : Source) :
    (s.refilled bytes src).regs = { s.regs with rdFilled := BitVec.ofNat 32 (bytes.length / 2), rdPos := 0 } := rfl
theorem State.refilled_buf (s : State) (bytes : List Byte) (src : Source) :
    (s.refilled bytes src).buf = s.buf.writeList 0 bytes := rfl
@[simp] theorem State.refilled_ch0 (s : State) (bytes : List Byte) (src : Source) :
    (s.refilled bytes src).ch0 = s.ch0 := rfl
@[simp] theorem State.refilled_ch1 (s : State) (bytes : List Byte) (src : Source) :
    (s.refilled bytes src).ch1 = s.ch1 := rfl
@[simp] theorem State.refilled_out (s : State) (bytes : List Byte) (src : Source) :
    (s.refilled bytes src).out = s.out := rfl

/-- `RD_FILLED` after a refill, as a number: the floor of half the bytes yielded (R133). -/
theorem State.refilled_filled {s : State} {bytes : List Byte} {src : Source}
    (h : bytes.length ≤ 2 * s.regs.rdBlksz.toNat) :
    (s.refilled bytes src).regs.rdFilled.toNat = bytes.length / 2 := by
  have := s.regs.rdBlksz.isLt
  exact Word32.toNat_ofNat_of_lt (by omega)

/-- `BUF` after a refill, byte by byte (R133, R138). -/
theorem State.refilled_readByte (s : State) (bytes : List Byte) (src : Source) (a : Nat) :
    (s.refilled bytes src).readByte .buf a = if a < bytes.length then bytes.getD a 0 else s.readByte .buf a := by
  have := State.readByte_writeBytes { s with
    src := src
    regs := { s.regs with rdFilled := BitVec.ofNat 32 (bytes.length / 2), rdPos := 0 } } .buf 0 bytes a
  simp only [Nat.zero_le, true_and, Nat.zero_add, Nat.sub_zero] at this
  exact this

theorem State.refilled_readerOk {s : State} {bytes : List Byte} {src : Source} (hs : s.readerOk)
    (h : bytes.length ≤ 2 * s.regs.rdBlksz.toNat) : (s.refilled bytes src).readerOk := by
  refine ⟨?_, ?_, hs.2.2⟩
  · rw [State.refilled_filled h]
    simp
  · rw [State.refilled_filled h]
    simp only [State.refilled_regs]
    omega

/-- `RD_POS` after a copy within the filled part, as a number (R134). -/
theorem State.copyOut_pos {s : State} {ret m : Nat} (h : s.regs.rdPos.toNat + m ≤ s.regs.rdFilled.toNat) :
    (s.copyOut ret m).regs.rdPos.toNat = s.regs.rdPos.toNat + m := by
  have := s.regs.rdFilled.isLt
  exact Word32.toNat_ofNat_of_lt (by omega)

theorem State.copyCount_fits {s : State} (hs : s.readerOk) (rem : Nat) :
    s.regs.rdPos.toNat + s.copyCount rem ≤ s.regs.rdFilled.toNat := by
  have := hs.1
  unfold State.copyCount
  omega

theorem State.copyOut_readerOk {s : State} (hs : s.readerOk) (ret rem : Nat) :
    (s.copyOut ret (s.copyCount rem)).readerOk := by
  refine ⟨?_, hs.2.1, hs.2.2⟩
  rw [State.copyOut_pos (State.copyCount_fits hs rem)]
  exact State.copyCount_fits hs rem

/-- The copy stays within `BUF` (R72). -/
theorem State.copy_inRange {s : State} (hs : s.readerOk) (rem : Nat) :
    s.inRange .buf (s.unread 1) (s.copyCount rem) = true := by
  have h1 := State.copyCount_fits hs rem
  obtain ⟨-, h2, h3⟩ := hs
  have hu : s.unread 1 = s.regs.rdBlksz.toNat + s.regs.rdPos.toNat := by simp [State.unread]
  have hz : s.build.size .buf = 2 * s.build.blkszMax := rfl
  simp only [State.inRange, hu, hz, Bool.or_eq_true, decide_eq_true_eq]
  right
  omega

theorem Memory.fits_writeList {m : Memory} {size a : Nat} {bs : List Byte} (hm : m.fits size)
    (h : bs = [] ∨ a + bs.length ≤ size) : (m.writeList a bs).fits size := by
  refine ⟨Memory.writeList_wf hm.1 a bs, fun c hc => ?_⟩
  rcases Memory.mem_writeList hc with hc | hc
  · rcases h with rfl | h
    · simp at hc; omega
    · omega
  · exact hm.2 c hc

theorem State.refilled_memoriesOk {s : State} {bytes : List Byte} {src : Source} (hs : s.memoriesOk)
    (h : bytes.length ≤ s.build.size .buf) : (s.refilled bytes src).memoriesOk :=
  ⟨Memory.fits_writeList hs.1 (.inr (by simpa using h)), hs.2⟩

theorem State.copyOut_memoriesOk {s : State} {ret m : Nat} (hs : s.memoriesOk) (h : ret + m ≤ s.build.chCap) :
    (s.copyOut ret m).memoriesOk :=
  ⟨hs.1, Memory.fits_writeList hs.2.1 (.inr (by simpa [Build.size] using h)),
    Memory.fits_writeList hs.2.2.1 (.inr (by simpa [Build.size] using h)), hs.2.2.2⟩

/-- A refill under the reader's invariant: it never leaves `BUF`, it stops for want of an answer only, and it keeps the
invariant. -/
theorem State.refillIfExhausted_reader {s : State} (hr : s.readerOk) :
    match s.refillIfExhausted with
    | .data t => t.readerOk ∧ t.build = s.build
    | .empty t => t.readerOk ∧ t.build = s.build
    | .stuck f => f = .sourceNeverAnswers ∧ SourceAnswer.never ∈ s.src.answers := by
  unfold State.refillIfExhausted
  by_cases hp : s.regs.rdPos = s.regs.rdFilled
  · rw [if_pos hp]
    cases h : s.refill with
    | data t =>
      obtain ⟨bytes, src, h1, -, h3, rfl⟩ := State.refill_data h
      exact ⟨State.refilled_readerOk hr (Source.read_spec h1).1, rfl⟩
    | empty t =>
      obtain ⟨src, h1, rfl⟩ := State.refill_empty h
      exact ⟨hr, rfl⟩
    | stuck f =>
      cases hread : s.src.read (2 * s.regs.rdBlksz.toNat) with
      | none =>
        simp only [State.refill, hread, Refill.stuck.injEq] at h
        refine ⟨h.symm, by_contra fun hn => ?_⟩
        obtain ⟨p, hp⟩ := Source.read_isSome (src := s.src) (fun a ha hne => hn (hne ▸ ha)) (2 * s.regs.rdBlksz.toNat)
        simp [hp] at hread
      | some p =>
        obtain ⟨bytes, src⟩ := p
        have hle := (Source.read_spec hread).1
        by_cases hne : bytes = []
        · subst hne
          simp [State.refill_eq_empty hread] at h
        · have hfit : bytes.length ≤ s.build.size .buf := by
            have : s.build.size .buf = 2 * s.build.blkszMax := rfl
            have := hr.2.2
            omega
          simp [State.refill_eq_data hread hne hfit] at h
  · rw [if_neg hp]
    exact ⟨hr, rfl⟩

/-- A refill keeps the memories in order. -/
theorem State.refillIfExhausted_memories {s : State} (hm : s.memoriesOk) :
    match s.refillIfExhausted with
    | .data t => t.memoriesOk
    | .empty t => t.memoriesOk
    | .stuck _ => True := by
  unfold State.refillIfExhausted
  by_cases hp : s.regs.rdPos = s.regs.rdFilled
  · rw [if_pos hp]
    cases h : s.refill with
    | data t =>
      obtain ⟨bytes, src, -, -, h3, rfl⟩ := State.refill_data h
      exact State.refilled_memoriesOk hm h3
    | empty t =>
      obtain ⟨src, -, rfl⟩ := State.refill_empty h
      exact hm
    | stuck f => trivial
  · rw [if_neg hp]
    exact hm

/-- A refill never adds to what the source has laid down. -/
theorem Source.read_budget {src src' : Source} {k : Nat} {bytes : List Byte} (h : src.read k = some (bytes, src')) :
    src'.budget ≤ src.budget := by
  obtain ⟨-, -, h1, h2, h3⟩ := Source.read_spec h
  have : src'.remaining ≤ src.remaining := by simp only [Source.remaining, h1, h2.stream]; omega
  have : src'.answers.length ≤ src.answers.length := by
    rcases h3 with ⟨h3, -⟩ | h3
    · exact h3 ▸ Nat.le_refl _
    · omega
  unfold Source.budget
  omega

/-- A refill of one byte uses up a laid-down answer or byte, or comes from a useless source (R141). -/
theorem Source.read_progress {src src' : Source} {k : Nat} {bytes : List Byte} (h : src.read k = some (bytes, src'))
    (hk : 2 ≤ k) (hb : bytes.length = 1) :
    src'.budget < src.budget ∨ src.answers = [] ∧ src.useless := by
  obtain ⟨-, h0, h1, h2, h3⟩ := Source.read_spec h
  have hr : src'.remaining = src.remaining - 1 := by
    simp only [Source.remaining, h1, h2.stream, hb]
    omega
  rcases h3 with ⟨ha, h3⟩ | h3
  · obtain ⟨hn, h3⟩ := h3.resolve_left (by omega)
    cases hm : src.more with
    | none =>
      left
      have : 1 ≤ src.remaining := by
        have := congrArg List.length h0
        rw [hb, Source.bytesAt_of_ends hm] at this
        simp at this
        simp only [Source.remaining]
        omega
      simp only [Source.budget, ha]
      omega
    | some e =>
      right
      refine ⟨hn, by simp [hm], ?_⟩
      have hl := congrArg List.length h3
      rw [Source.bytesAt_length_of_more (by simp [hm]), hb] at hl
      unfold Source.willing at hl
      split at hl
      · omega
      · rename_i limit heq
        rw [heq, show limit = 1 by omega]
  · left
    unfold Source.budget
    omega

/-- An iteration that brings data makes progress: it has bytes to copy, or it used up something laid down for the source; or
the source is useless and its answers are used up (R141). -/
theorem State.refillIfExhausted_progress {s t : State} (hr : s.readerOk) (h : s.refillIfExhausted = .data t) (rem : Nat)
    (hrem : 0 < rem) :
    t.src.budget ≤ s.src.budget ∧ (0 < t.copyCount rem ∨ t.src.budget < s.src.budget ∨
      s.regs.rdPos = s.regs.rdFilled ∧ s.src.answers = [] ∧ s.src.useless) := by
  unfold State.refillIfExhausted at h
  split at h
  · rename_i hp
    obtain ⟨bytes, src, h1, h2, -, rfl⟩ := State.refill_data h
    have h3 : 0 < bytes.length := List.length_pos_of_ne_nil h2
    have hk := (Source.read_spec h1).1
    refine ⟨Source.read_budget h1, ?_⟩
    by_cases h4 : bytes.length = 1
    · rcases Source.read_progress h1 (by omega) h4 with h5 | h5
      · exact .inr (.inl h5)
      · exact .inr (.inr ⟨hp, h5⟩)
    · left
      have hf := State.refilled_filled (src := src) hk
      have hp0 : (s.refilled bytes src).regs.rdPos.toNat = 0 := rfl
      unfold State.copyCount
      omega
  · rename_i hne
    simp only [Refill.data.injEq] at h
    subst h
    have h1 : s.regs.rdPos.toNat ≠ s.regs.rdFilled.toNat := fun h => hne (BitVec.eq_of_toNat_eq h)
    have h2 := hr.1
    exact ⟨Nat.le_refl _, .inl (by unfold State.copyCount; omega)⟩

/-- The whole loop under the invariants: with the fuel `READ` gives it, it stops for want of an answer, or because the
source is useless, or not at all, and it keeps the invariants (R31, R141). -/
theorem readLoop_ok {fuel rem ret : Nat} {s : State} (hr : s.readerOk) (hm : s.memoriesOk)
    (hcap : ret + rem ≤ s.build.chCap) (hfuel : rem + s.src.budget ≤ fuel ∨ s.src.useless) :
    match readLoop fuel rem ret s with
    | .served _ t => t.readerOk ∧ t.memoriesOk
    | .empty t => t.readerOk ∧ t.memoriesOk
    | .stuck f => f = .sourceNeverAnswers ∧ SourceAnswer.never ∈ s.src.answers ∨ f = .readNeverEnds ∧ s.src.useless := by
  induction fuel generalizing rem ret s with
  | zero =>
    cases rem with
    | zero => exact ⟨hr, hm⟩
    | succ rem => exact .inr ⟨rfl, hfuel.resolve_left (by omega)⟩
  | succ fuel ih =>
    cases rem with
    | zero => exact ⟨hr, hm⟩
    | succ rem =>
      rw [readLoop_step]
      have hok := State.refillIfExhausted_reader hr
      have hmem := State.refillIfExhausted_memories hm
      cases hrf : s.refillIfExhausted with
      | stuck f =>
        simp only [hrf] at hok
        exact .inl hok
      | empty t =>
        simp only [hrf] at hok hmem
        exact ⟨hok.1, hmem⟩
      | data s1 =>
        simp only [hrf] at hok hmem
        obtain ⟨hr1, hb⟩ := hok
        have hle := s1.copyCount_le (rem + 1)
        have hprog := State.refillIfExhausted_progress hr hrf (rem + 1) (by omega)
        have hsrc := (State.refillIfExhausted_keeps 0 0 hrf).src
        dsimp only
        rw [if_pos (State.copy_inRange hr1 (rem + 1))]
        have key := ih (rem := rem + 1 - s1.copyCount (rem + 1)) (ret := ret + s1.copyCount (rem + 1))
          (State.copyOut_readerOk hr1 ret (rem + 1))
          (State.copyOut_memoriesOk hmem (by rw [hb]; omega))
          (by rw [State.copyOut_build, hb]; omega)
          (by
            rw [State.copyOut_src, hsrc.useless]
            rcases hfuel with hf | hu
            · obtain ⟨h1, h2 | h2 | h2⟩ := hprog
              · exact .inl (by omega)
              · exact .inl (by omega)
              · exact .inr h2.2.2
            · exact .inr hu)
        split at key
        · simpa [*] using key
        · simpa [*] using key
        · simp only [State.copyOut_src, hsrc.useless] at key
          exact key.imp (fun h => ⟨h.1, hsrc.answers _ h.2⟩) id

/-- One iteration of the loop from an exhausted buffer, when the source yields bytes: a refill and a copy (R132). -/
theorem readLoop_refill {s : State} {bytes : List Byte} {src : Source} {fuel rem ret : Nat} (hr : s.readerOk)
    (hp : s.regs.rdPos = s.regs.rdFilled) (hread : s.src.read (2 * s.regs.rdBlksz.toNat) = some (bytes, src))
    (hne : bytes ≠ []) :
    readLoop (fuel + 1) (rem + 1) ret s =
      readLoop fuel (rem + 1 - min (rem + 1) (bytes.length / 2)) (ret + min (rem + 1) (bytes.length / 2))
        ((s.refilled bytes src).copyOut ret (min (rem + 1) (bytes.length / 2))) := by
  obtain ⟨hk, -⟩ := Source.read_spec hread
  have hfit : bytes.length ≤ s.build.size .buf := by
    have := hr.2.2
    have : s.build.size .buf = 2 * s.build.blkszMax := rfl
    omega
  have hf := State.refilled_filled (src := src) hk
  have hp0 : (s.refilled bytes src).regs.rdPos.toNat = 0 := rfl
  have hc : (s.refilled bytes src).copyCount (rem + 1) = min (rem + 1) (bytes.length / 2) := by
    unfold State.copyCount
    rw [hf, hp0]
    omega
  have hin := State.copy_inRange (State.refilled_readerOk (src := src) hr hk) (rem + 1)
  rw [hc] at hin
  rw [readLoop_step]
  simp only [State.refillIfExhausted, hp, if_true, State.refill_eq_data hread hne hfit, hc, hin]

/-- The loop from an exhausted buffer, when the source yields nothing (R135). -/
theorem readLoop_refill_empty {s : State} {src : Source} {fuel rem ret : Nat} (hp : s.regs.rdPos = s.regs.rdFilled)
    (hread : s.src.read (2 * s.regs.rdBlksz.toNat) = some ([], src)) :
    readLoop (fuel + 1) (rem + 1) ret s = .empty { s with src := src } := by
  rw [readLoop_step]
  simp only [State.refillIfExhausted, hp, if_true, State.refill_eq_empty hread]

/-- A useless source yields one byte, and stays useless (R141). -/
theorem Source.read_useless {src : Source} {k : Nat} (hk : 0 < k) (ha : src.answers = []) (hu : src.useless) :
    ∃ bytes src', src.read k = some (bytes, src') ∧ bytes.length = 1 ∧ src'.answers = [] ∧ src'.useless := by
  have h1 : src.willing k = 1 := by
    simp only [Source.willing, hu.2]
    omega
  refine ⟨(src.yield 1).1, (src.yield 1).2, ?_, Source.bytesAt_length_of_more hu.1 src.cursor 1, ha, hu⟩
  simp only [Source.read, ha, h1]
  rw [if_neg (by omega)]

/-- An exhausted reader on a useless source goes round for ever (R141). -/
theorem readLoop_useless (fuel : Nat) {rem ret : Nat} {s : State} (hr : s.readerOk) (hp : s.regs.rdPos = s.regs.rdFilled)
    (hb : s.regs.rdBlksz ≠ 0) (ha : s.src.answers = []) (hu : s.src.useless) :
    readLoop fuel (rem + 1) ret s = .stuck .readNeverEnds := by
  induction fuel generalizing s with
  | zero => rfl
  | succ fuel ih =>
    have hb' : s.regs.rdBlksz.toNat ≠ 0 := fun h => hb (BitVec.eq_of_toNat_eq h)
    obtain ⟨bytes, src, hread, hl, ha', hu'⟩ := Source.read_useless (k := 2 * s.regs.rdBlksz.toNat) (by omega) ha hu
    have hne : bytes ≠ [] := by
      rintro rfl
      simp at hl
    rw [readLoop_refill hr hp hread hne, hl]
    have hm : min (rem + 1) (1 / 2) = 0 := by omega
    have hro := State.refilled_readerOk (src := src) hr (Source.read_spec hread).1
    rw [hm]
    refine ih ⟨?_, hro.2⟩ ?_ hb ha' hu'
    · simp
    · simp [hl]

/-- More fuel changes no answer but that there was too little. -/
theorem readLoop_more {fuel rem ret : Nat} {s : State} (h : readLoop fuel rem ret s ≠ .stuck .readNeverEnds) (k : Nat) :
    readLoop (fuel + k) rem ret s = readLoop fuel rem ret s := by
  induction fuel generalizing rem ret s with
  | zero =>
    cases rem with
    | zero => simp
    | succ rem => exact absurd rfl h
  | succ fuel ih =>
    cases rem with
    | zero => simp
    | succ rem =>
      rw [Nat.add_right_comm, readLoop_step, readLoop_step]
      rw [readLoop_step] at h
      cases hrf : s.refillIfExhausted with
      | stuck f => rfl
      | empty t => rfl
      | data s1 =>
        simp only [hrf] at h ⊢
        cases hin : s1.inRange .buf (s1.unread 1) (s1.copyCount (rem + 1)) with
        | false => rfl
        | true =>
          simp only [hin, if_true] at h ⊢
          exact ih h

/-- The bound on the iterations is honest: under the reader's invariant, when the loop of `READ` runs out of the fuel it is given,
no amount of fuel would do (R141, log 7). -/
theorem readLoop_never_ends {fuel rem ret : Nat} {s : State} (hr : s.readerOk) (hfuel : rem + s.src.budget ≤ fuel)
    (h : readLoop fuel rem ret s = .stuck .readNeverEnds) (k : Nat) : readLoop k rem ret s = .stuck .readNeverEnds := by
  induction fuel generalizing rem ret s k with
  | zero =>
    obtain rfl : rem = 0 := by omega
    simp at h
  | succ fuel ih =>
    cases rem with
    | zero => simp at h
    | succ rem =>
      have hok := State.refillIfExhausted_reader hr
      rw [readLoop_step] at h
      cases hrf : s.refillIfExhausted with
      | stuck f => simp only [hrf] at h hok; simp [hok.1] at h
      | empty t => simp [hrf] at h
      | data s1 =>
        simp only [hrf] at hok h
        have hr1 := hok.1
        have hle := s1.copyCount_le (rem + 1)
        rw [if_pos (State.copy_inRange hr1 (rem + 1))] at h
        cases k with
        | zero => rfl
        | succ k =>
          obtain ⟨h1, h2⟩ := State.refillIfExhausted_progress hr hrf (rem + 1) (by omega)
          by_cases hu : s.regs.rdPos = s.regs.rdFilled ∧ s.src.answers = [] ∧ s.src.useless
          · obtain ⟨hp, ha, hu⟩ := hu
            refine readLoop_useless _ hr hp ?_ ha hu
            intro hz
            simp [State.refillIfExhausted, hp, State.refill, hz, Source.read] at hrf
          · rw [readLoop_step]
            simp only [hrf]
            rw [if_pos (State.copy_inRange hr1 (rem + 1))]
            exact ih (State.copyOut_readerOk hr1 ret (rem + 1))
              (by
                rw [State.copyOut_src]
                rcases h2 with h2 | h2 | h2
                · omega
                · omega
                · exact absurd h2 hu) h k

/-- Whatever fuel the loop ends with, `READ` gives it enough to end the same way. -/
theorem readLoop_enough {fuel k rem ret : Nat} {s : State} (hr : s.readerOk) (hfuel : rem + s.src.budget ≤ fuel)
    (h : readLoop k rem ret s ≠ .stuck .readNeverEnds) : readLoop fuel rem ret s = readLoop k rem ret s := by
  have h1 : readLoop fuel rem ret s ≠ .stuck .readNeverEnds := fun hn => h (readLoop_never_ends hr hfuel hn k)
  rw [← readLoop_more h1 k, Nat.add_comm, readLoop_more h]

end Sys2Proof.Machine
end

