-- ==== Sys2Proof/Laws/Commands.lean ====
section
/-! SUPPORT. One inversion lemma per meaning: if the command answers a next state, then its host duties hold and the
state is this one. Later proofs cite these and unfold no meaning. -/

namespace Sys2Proof.Machine

theorem State.withCount_next {s t : State} {n : Nat} {run : Host.Outcome State Fault Refusal}
    (h : s.withCount n run = .next t) : n ≤ s.build.chCap ∧ run = .next t := by
  unfold State.withCount at h
  split at h
  · exact ⟨‹_›, h⟩
  · simp at h

theorem State.withSource_next {s t : State} {run : Host.Outcome State Fault Refusal}
    (h : s.withSource run = .next t) : s.src.discarded = false ∧ run = .next t := by
  unfold State.withSource at h
  split at h
  · simp at h
  · rename_i hd
    exact ⟨by simpa using hd, h⟩

theorem State.withCount_eq {s : State} {n : Nat} (h : n ≤ s.build.chCap) (run : Host.Outcome State Fault Refusal) :
    s.withCount n run = run := by simp [State.withCount, h]

theorem State.withSource_eq {s : State} (h : s.src.discarded = false) (run : Host.Outcome State Fault Refusal) :
    s.withSource run = run := by simp [State.withSource, h]

theorem State.withBlock_next {s t : State} {run : Host.Outcome State Fault Refusal} (h : s.withBlock run = .next t) :
    s.regs.cfgBlksz.toNat ≤ s.build.blkszMax ∧ run = .next t := by
  unfold State.withBlock at h
  split at h
  · exact ⟨‹_›, h⟩
  · simp at h

theorem State.withBlock_eq {s : State} (h : s.regs.cfgBlksz.toNat ≤ s.build.blkszMax)
    (run : Host.Outcome State Fault Refusal) : s.withBlock run = run := by simp [State.withBlock, h]

/-- Under `withDuty` the duty is kept, where R191 is followed. -/
theorem State.withDuty_next {s t : State} {kept : Bool} {r : Refusal} {run : Host.Outcome State Fault Refusal}
    (h : s.withDuty kept r run = .next t) : (s.build.strictDuties = true → kept = true) ∧ run = .next t := by
  unfold State.withDuty at h
  split at h
  · simp at h
  · rename_i hk
    exact ⟨by simpa using hk, h⟩

theorem State.withDuty_eq {s : State} {kept : Bool} (h : s.build.strictDuties = true → kept = true) (r : Refusal)
    (run : Host.Outcome State Fault Refusal) : s.withDuty kept r run = run := by
  simpa [State.withDuty] using fun h1 h2 => by simp [h h1] at h2

/-- `INIT` (R131): its duties, and the state it leaves. -/
theorem exec_init_next {s t : State} (h : exec .init s = .next t) :
    s.sourceReady ∧ s.regs.cfgBlksz.toNat ≤ s.build.blkszMax ∧
      t = { s with use := .inUse, regs := { s.regs.activate with result := 0, statusErr := 0 } } := by
  obtain ⟨h1, h2⟩ := State.withSource_next h
  obtain ⟨h2, h3⟩ := State.withBlock_next h2
  obtain ⟨h3, h4⟩ := State.withDuty_next h3
  exact ⟨⟨h1, h3⟩, h2, (Host.Outcome.next.inj h4).symm⟩

theorem exec_init_eq {s : State} (h1 : s.sourceReady) (h2 : s.regs.cfgBlksz.toNat ≤ s.build.blkszMax) :
    exec .init s = .next { s with use := .inUse, regs := { s.regs.activate with result := 0, statusErr := 0 } } :=
  (State.withSource_eq h1.1 _).trans ((State.withBlock_eq h2 _).trans (State.withDuty_eq h1.2 _ _))

/-- `REV` (R124). -/
theorem exec_rev_eq (b : Byte) (s : State) : exec (.rev b) s = .next (s.setOutcome (Rom.lookup b).toNat 0) := rfl

/-- `NORM` (R125). -/
theorem exec_norm_eq (b : Byte) (s : State) :
    exec (.norm b) s = .next (s.setOutcome (norm s.regs.fmtLsbf b).toNat 0) := rfl

/-- `ENCD` (R151): its duty, and the state it leaves. -/
theorem exec_encd_next {s t : State} {n : Nat} (h : exec (.encd n) s = .next t) :
    n ≤ s.build.chCap ∧ t = s.afterEncd n := by
  obtain ⟨h1, h2⟩ := State.withCount_next h
  exact ⟨h1, (Host.Outcome.next.inj h2).symm⟩

theorem exec_encd_eq {s : State} {n : Nat} (h : n ≤ s.build.chCap) : exec (.encd n) s = .next (s.afterEncd n) :=
  State.withCount_eq h _

/-- `ENCP` (R161, R162): its duty, and the state it leaves. -/
theorem exec_encp_next {s t : State} {n : Nat} (h : exec (.encp n) s = .next t) :
    n ≤ s.build.chCap ∧ (n % 2 = 1 ∧ t = s.setOutcome 0 1 ∨ n % 2 = 0 ∧ t = s.afterEncp n) := by
  obtain ⟨h1, h2⟩ := State.withCount_next h
  refine ⟨h1, ?_⟩
  split at h2
  · exact .inl ⟨‹_›, (Host.Outcome.next.inj h2).symm⟩
  · exact .inr ⟨by omega, (Host.Outcome.next.inj h2).symm⟩

theorem exec_encp_eq {s : State} {n : Nat} (h : n ≤ s.build.chCap) (he : n % 2 = 0) :
    exec (.encp n) s = .next (s.afterEncp n) := by
  show s.withCount n _ = _
  rw [State.withCount_eq h, if_neg (by omega)]

theorem exec_encp_odd {s : State} {n : Nat} (h : n ≤ s.build.chCap) (ho : n % 2 = 1) :
    exec (.encp n) s = .next (s.setOutcome 0 1) := by
  show s.withCount n _ = _
  rw [State.withCount_eq h, if_pos ho]
  rfl

/-- `READ` (R132): its duties, and the two ways its loop can end. -/
theorem exec_read_next {s t : State} {n : Nat} (h : exec (.read n) s = .next t) :
    s.sourceUsable n ∧ n ≤ s.build.chCap ∧
      ((∃ u, readLoop (s.readFuel n) n 0 s = .served n u ∧ t = u.report n) ∨
        (∃ u, readLoop (s.readFuel n) n 0 s = .empty u ∧ t = u.complete 0)) := by
  obtain ⟨hsrc, hrun⟩ := State.withSource_next h
  obtain ⟨hcap, hrun'⟩ := State.withCount_next hrun
  obtain ⟨hduty, h3⟩ := State.withDuty_next hrun'
  clear hrun hrun'
  refine ⟨⟨hsrc, hduty⟩, hcap, ?_⟩
  have hk := readLoop_keeps (s.readFuel n) n 0 s
  split at h3
  · rename_i ret u heq
    simp only [heq, Nat.zero_add] at hk
    obtain ⟨rfl, -⟩ := hk
    exact .inl ⟨u, heq, by simpa using h3.symm⟩
  · rename_i u heq
    exact .inr ⟨u, heq, by simpa using h3.symm⟩
  · simp at h3

theorem exec_read_eq {s : State} {n : Nat} (h1 : s.sourceUsable n) (h2 : n ≤ s.build.chCap) :
    exec (.read n) s =
      match readLoop (s.readFuel n) n 0 s with
      | .served ret t => .next (t.report ret)
      | .empty t => .next (t.complete 0)
      | .stuck f => .fault f := by
  exact (State.withSource_eq h1.1 _).trans ((State.withCount_eq h2 _).trans (State.withDuty_eq h1.2 _ _))

@[simp] theorem State.report_mem (s : State) (ret : Nat) (sp : Space) : (s.report ret).mem sp = s.mem sp := by
  match sp with
  | .buf | .ch 0 | .ch 1 | .out => rfl
@[simp] theorem State.report_build (s : State) (ret : Nat) : (s.report ret).build = s.build := rfl
@[simp] theorem State.report_src (s : State) (ret : Nat) : (s.report ret).src = s.src := rfl
@[simp] theorem State.report_use (s : State) (ret : Nat) : (s.report ret).use = s.use := rfl
@[simp] theorem State.report_agent (s : State) (ret : Nat) : (s.report ret).agent = s.agent := rfl
@[simp] theorem State.report_sink (s : State) (ret : Nat) : (s.report ret).sink = s.sink := rfl
@[simp] theorem State.report_draws (s : State) (ret : Nat) : (s.report ret).draws = s.draws := rfl
@[simp] theorem State.report_epoch (s : State) (ret : Nat) : (s.report ret).epoch = s.epoch := rfl
@[simp] theorem State.report_regs (s : State) (ret : Nat) :
    (s.report ret).regs = { s.regs with
      rdEmitted := BitVec.ofNat 64 (s.regs.emittedAfter ret)
      result := BitVec.ofNat 32 (s.regs.reported ret)
      statusErr := 0 } := rfl
@[simp] theorem State.report_readByte (s : State) (ret : Nat) (sp : Space) (a : Nat) :
    (s.report ret).readByte sp a = s.readByte sp a := State.readByte_congr (by simp) rfl a

/-- Truncation never reports more than was served (R136). -/
theorem Regs.reported_le (r : Regs) (ret : Nat) : r.reported ret ≤ ret := by
  unfold Regs.reported
  dsimp only
  split <;> omega

/-- What `RESULT` holds after a `READ` that served `ret` bytes (R136). -/
theorem Regs.reported_toNat (r : Regs) {ret : Nat} (h : ret < 2 ^ 32) :
    (BitVec.ofNat 32 (r.reported ret)).toNat = ret - (r.rdEmitted.toNat + 8 * ret - r.fmtTotal.toNat) / 8 := by
  have := r.reported_le ret
  rw [Word32.toNat_ofNat_of_lt (by omega)]
  unfold Regs.reported
  dsimp only
  split <;> omega

/-- `RD_EMITTED` after a `READ` that served `ret` bytes, as a number (R136): it fits by the clamp. -/
theorem State.report_emitted (s : State) (ret : Nat) :
    (s.report ret).regs.rdEmitted.toNat = min (s.regs.rdEmitted.toNat + ret * 8) s.regs.fmtTotal.toNat := by
  have := s.regs.fmtTotal.isLt
  simp only [State.report_regs, Regs.emittedAfter, BitVec.toNat_ofNat]
  omega

/-- What `READ n` leaves alone (R132, R143): all but the reader's cursor registers, `RD_EMITTED`, `RESULT`, `STATUS`, the
source, `BUF` and the first `n` bytes of each `CH`. -/
theorem exec_read_keeps {s t : State} {n : Nat} (h : exec (.read n) s = .next t) :
    ∃ u, ReadKeeps 0 n s u ∧ (t = u.report n ∨ t = u.setOutcome 0 0) := by
  obtain ⟨-, -, ⟨u, h1, rfl⟩ | ⟨u, h1, rfl⟩⟩ := exec_read_next h
  · have := readLoop_keeps (s.readFuel n) n 0 s
    simp only [h1, Nat.zero_add, true_and] at this
    exact ⟨u, this, .inl rfl⟩
  · have := readLoop_keeps (s.readFuel n) n 0 s
    simp only [h1, Nat.zero_add] at this
    exact ⟨u, this, .inr rfl⟩

end Sys2Proof.Machine
end

