-- ==== Sys2Proof/Laws/Encode.lean ====
section
/-! SUPPORT. The fields of a command word built from its two parts (30_encoding.md R91): what the decoder takes apart
again. -/

namespace Sys2Proof

/-- The bits of a word built from its fields. -/
theorem commandWord_getLsbD (op : BitVec 8) (opnd : BitVec 24) (i : Nat) :
    (commandWord op opnd).getLsbD i = if i < 24 then opnd.getLsbD i else op.getLsbD (i - 24) := by
  show (op ++ opnd).getLsbD i = _
  rw [BitVec.getLsbD_append]

@[simp] theorem opField_commandWord (op : BitVec 8) (opnd : BitVec 24) : opField (commandWord op opnd) = op := by
  refine BitVec.eq_of_getLsbD_eq fun i hi => ?_
  simp [opField, commandWord_getLsbD, hi, show ¬(24 + i < 24) by omega]

@[simp] theorem opndField_commandWord (op : BitVec 8) (opnd : BitVec 24) : opndField (commandWord op opnd) = opnd := by
  refine BitVec.eq_of_getLsbD_eq fun i hi => ?_
  simp only [opndField, BitVec.getLsbD_extractLsb', commandWord_getLsbD, Nat.zero_add, hi, decide_true, Bool.true_and,
    if_true]

/-- A word is its two fields (R91). -/
theorem commandWord_fields (w : Word32) : commandWord (opField w) (opndField w) = w := by
  refine BitVec.eq_of_getLsbD_eq fun i hi => ?_
  rw [commandWord_getLsbD]
  split
  · rename_i h
    simp [opndField, h]
  · rename_i h
    simp [opField, show i - 24 < 8 by omega, show 24 + (i - 24) = i by omega]

@[simp] theorem byteField_commandWord (op : BitVec 8) (b : Byte) : byteField (commandWord op (b.setWidth 24)) = b := by
  refine BitVec.eq_of_getLsbD_eq fun i hi => ?_
  simp [byteField, commandWord_getLsbD, hi, show i < 24 by omega]

@[simp] theorem zeroField_commandWord (op : BitVec 8) (b : Byte) : zeroField (commandWord op (b.setWidth 24)) = 0 := by
  refine BitVec.eq_of_getLsbD_eq fun i hi => ?_
  simp only [zeroField, BitVec.getLsbD_extractLsb', commandWord_getLsbD, hi, decide_true, Bool.true_and]
  rw [if_pos (by omega), BitVec.getLsbD_setWidth, BitVec.getLsbD_of_ge b _ (by omega)]
  simp

/-- An operand with zeros above bit 7 is its byte (R92). -/
theorem byteField_of_zeroField {w : Word32} (h : zeroField w = 0) : (byteField w).setWidth 24 = opndField w := by
  refine BitVec.eq_of_getLsbD_eq fun i hi => ?_
  by_cases hb : i < 8
  · simp [byteField, opndField, hi, hb]
  · have h2 := congrArg (fun x => x.getLsbD (i - 8)) h
    simp only [zeroField, BitVec.getLsbD_extractLsb', show i - 8 < 16 by omega, decide_true, Bool.true_and,
      show 8 + (i - 8) = i by omega] at h2
    simp only [byteField, opndField, BitVec.getLsbD_setWidth, BitVec.getLsbD_extractLsb', hi, hb, decide_true,
      decide_false, Bool.true_and, Bool.false_and, Nat.zero_add]
    simpa using h2.symm

end Sys2Proof
end

