-- ==== Sys2Proof/Laws/Frames.lean ====
section
/-! SUPPORT. The laws of the frame encoders: where a byte of frame `g` stands in the output, and what `OUT` holds after
`ENCD` (42_direct_interleave.md R151) and `ENCP` (43_dop_frame.md R161). -/

namespace Sys2Proof.Machine

/-- Frames of one width laid end to end: how long they are together. -/
theorem frames_length {w : Nat} {f : Nat → List Byte} (hf : ∀ g, (f g).length = w) (m : Nat) :
    ((List.range m).flatMap f).length = w * m := by
  induction m with
  | zero => simp
  | succ m ih => simp [List.range_succ, hf, ih, Nat.mul_succ]

/-- Byte `k` of frame `g` stands at `w * g + k`. -/
theorem frames_getElem? {w : Nat} {f : Nat → List Byte} (hf : ∀ g, (f g).length = w) {m g k : Nat} (hg : g < m)
    (hk : k < w) : ((List.range m).flatMap f)[w * g + k]? = (f g)[k]? := by
  induction m with
  | zero => omega
  | succ m ih =>
    have hl := frames_length hf m
    rw [List.range_succ, List.flatMap_append, List.flatMap_singleton]
    by_cases h : g = m
    · subst h
      rw [List.getElem?_append_right (by omega)]
      congr 1
      omega
    · have : w * (g + 1) ≤ w * m := Nat.mul_le_mul_left w (by omega)
      rw [List.getElem?_append_left (by rw [hl]; rw [Nat.mul_succ] at this; omega)]
      exact ih (by omega)

@[simp] theorem State.directFrame_length (s : State) (g : Nat) : (s.directFrame g).length = 8 := rfl

theorem State.directFrames_length (s : State) (n : Nat) : (s.directFrames n).length = 8 * (n / 4) :=
  frames_length (f := s.directFrame) (fun _ => rfl) _

/-- Byte `k` of direct frame `g` (R98). -/
theorem State.directFrames_getElem? (s : State) {n g k : Nat} (hg : g < n / 4) (hk : k < 8) :
    (s.directFrames n)[8 * g + k]? = (s.directFrame g)[k]? :=
  frames_getElem? (f := s.directFrame) (fun _ => rfl) hg hk

/-- The two DoP frames of group `g`. -/
theorem State.dopFrames_length (s : State) (n : Nat) : (s.dopFrames n).length = 6 * (n / 2) :=
  frames_length (f := fun g => s.dopFrame g 0 ++ s.dopFrame g 1) (fun _ => rfl) _

/-- Byte `k` of the two DoP frames of group `g` (R99). -/
theorem State.dopFrames_getElem? (s : State) {n g k : Nat} (hg : g < n / 2) (hk : k < 6) :
    (s.dopFrames n)[6 * g + k]? = (s.dopFrame g 0 ++ s.dopFrame g 1)[k]? :=
  frames_getElem? (f := fun g => s.dopFrame g 0 ++ s.dopFrame g 1) (fun _ => rfl) hg hk

/-- The first byte of channel `c`'s DoP frame of group `g` stands at `(g * N_CH + c) * 3` (R99). -/
theorem State.dopFrames_frame (s : State) {n g k : Nat} (c : Fin 2) (hg : g < n / 2) (hk : k < 3) :
    (s.dopFrames n)[(g * 2 + c.val) * 3 + k]? = (s.dopFrame g c)[k]? := by
  rcases channel_cases c with rfl | rfl
  · rw [show (g * 2 + (0 : Fin 2).val) * 3 + k = 6 * g + k by simp; omega, State.dopFrames_getElem? s hg (by omega),
      List.getElem?_append_left (by simpa [State.dopFrame] using hk)]
  · rw [show (g * 2 + (1 : Fin 2).val) * 3 + k = 6 * g + (3 + k) by simp; omega,
      State.dopFrames_getElem? s hg (by omega), List.getElem?_append_right (by simp [State.dopFrame])]
    simp [State.dopFrame]

/-- `OUT` after `ENCD n`, byte by byte: the frames, then the free bytes, then the old contents (R151, R152). -/
theorem State.afterEncd_readByte (s : State) (n a : Nat) :
    (s.afterEncd n).readByte .out a =
      if a < 2 * n then (s.directFrames n ++ s.freeBytes (directTail n)).getD a 0 else s.readByte .out a := by
  have hl : (s.directFrames n ++ s.freeBytes (directTail n)).length = 2 * n := by
    rw [List.length_append, State.directFrames_length, State.freeBytes_length, directTail]
    omega
  have key : (s.afterEncd n).readByte .out a =
      (s.writeBytes .out 0 (s.directFrames n ++ s.freeBytes (directTail n))).readByte .out a := rfl
  rw [key, State.readByte_writeBytes, hl]
  simp

/-- `OUT` after `ENCP n` with an even `n`, byte by byte: the frames, then the old contents (R161). -/
theorem State.afterEncp_readByte (s : State) (n a : Nat) :
    (s.afterEncp n).readByte .out a =
      if a < 6 * (n / 2) then (s.dopFrames n).getD a 0 else s.readByte .out a := by
  have key : (s.afterEncp n).readByte .out a = (s.writeBytes .out 0 (s.dopFrames n)).readByte .out a := rfl
  rw [key, State.readByte_writeBytes, State.dopFrames_length]
  simp

end Sys2Proof.Machine
end

