-- ==== Sys2Proof/Laws/PerInstr.lean ====
section
/-! SUPPORT. Laws stated for each command as syntax. Family `Opcode`: the encoder writes the command's own opcode in
`word[31:24]` and its operand in `word[23:0]` (30_encoding.md R91, R93). -/

namespace Sys2Proof.Laws.Opcode

/-- The two fields of the command's word. -/
def Statement (i : Instr) : Prop := opField (encode i) = i.opcode ∧ opndField (encode i) = i.operand

theorem init : Statement .init := by simp [Statement, encode]
theorem read (n : Nat) : Statement (.read n) := by simp [Statement, encode]
theorem encd (n : Nat) : Statement (.encd n) := by simp [Statement, encode]
theorem encp (n : Nat) : Statement (.encp n) := by simp [Statement, encode]
theorem rev (b : Byte) : Statement (.rev b) := by simp [Statement, encode]
theorem norm (b : Byte) : Statement (.norm b) := by simp [Statement, encode]

end Sys2Proof.Laws.Opcode
end

