-- ==== Sys2Proof/Laws/Step.lean ====
section
/-! SUPPORT. What a command leaves alone whichever it is, what one host action can do, and what one step can do: each an
inversion lemma that invariants of the step are derived from (00_scope.md R13; 47_host_sequence.md R190). -/

namespace Sys2Proof.Machine

/-- What no command touches: the capacities, the staging registers, the host, the sink, the stream itself (R131, R132,
R151, R161, R124, R125). -/
structure CommandKeeps (s t : State) : Prop where
  build     : t.build = s.build
  cfgSrate  : t.regs.cfgSrate = s.regs.cfgSrate
  cfgLsbf   : t.regs.cfgLsbf = s.regs.cfgLsbf
  cfgTotal  : t.regs.cfgTotal = s.regs.cfgTotal
  cfgBlksz  : t.regs.cfgBlksz = s.regs.cfgBlksz
  src       : SourceKeeps s.src t.src
  agent     : t.agent = s.agent
  sink      : t.sink = s.sink
  epoch     : t.epoch = s.epoch

theorem CommandKeeps.setOutcome (s : State) (v : Nat) (e : BitVec 8) : CommandKeeps s (s.setOutcome v e) :=
  ⟨rfl, rfl, rfl, rfl, rfl, SourceKeeps.refl _, rfl, rfl, rfl⟩

theorem ReadKeeps.command {lo hi : Nat} {s t : State} (h : ReadKeeps lo hi s t) : CommandKeeps s t where
  build := h.build
  cfgSrate := by rw [h.regs]
  cfgLsbf := by rw [h.regs]
  cfgTotal := by rw [h.regs]
  cfgBlksz := by rw [h.regs]
  src := h.src
  agent := h.agent
  sink := h.sink
  epoch := h.epoch

/-- Every command keeps them. -/
theorem exec_keeps {i : Instr} {s t : State} (h : exec i s = .next t) : CommandKeeps s t := by
  cases i with
  | init =>
    obtain ⟨-, -, rfl⟩ := exec_init_next h
    exact ⟨rfl, rfl, rfl, rfl, rfl, SourceKeeps.refl _, rfl, rfl, rfl⟩
  | read n =>
    obtain ⟨u, hu, rfl | rfl⟩ := exec_read_keeps h
    · have := hu.command
      constructor
      all_goals simp only [State.report_build, State.report_regs, State.report_src, State.report_agent,
        State.report_sink, State.report_epoch]
      exacts [this.build, this.cfgSrate, this.cfgLsbf, this.cfgTotal, this.cfgBlksz, this.src, this.agent, this.sink, this.epoch]
    · have := hu.command
      constructor
      exacts [this.build, this.cfgSrate, this.cfgLsbf, this.cfgTotal, this.cfgBlksz, this.src, this.agent, this.sink, this.epoch]
  | encd n =>
    obtain ⟨-, rfl⟩ := exec_encd_next h
    exact ⟨rfl, rfl, rfl, rfl, rfl, SourceKeeps.refl _, rfl, rfl, rfl⟩
  | encp n =>
    obtain ⟨-, ⟨-, rfl⟩ | ⟨-, rfl⟩⟩ := exec_encp_next h
    · exact CommandKeeps.setOutcome ..
    · exact ⟨rfl, rfl, rfl, rfl, rfl, SourceKeeps.refl _, rfl, rfl, rfl⟩
  | rev b =>
    obtain rfl := Host.Outcome.next.inj h
    exact CommandKeeps.setOutcome ..
  | norm b =>
    obtain rfl := Host.Outcome.next.inj h
    exact CommandKeeps.setOutcome ..

theorem State.withRange_next {s t : State} {sp : Space} {a n : Nat} {run : StepOutcome}
    (h : s.withRange sp a n run = .next t) : s.inRange sp a n = true ∧ run = .next t := by
  unfold State.withRange at h
  split at h
  · exact ⟨‹_›, h⟩
  · simp at h

theorem State.inPhase_next {s t : State} {p : Phase} {run : StepOutcome} (h : s.inPhase p run = .next t) :
    s.agent.phase = p ∧ run = .next t := by
  unfold State.inPhase at h
  split at h
  · exact ⟨‹_›, h⟩
  · simp at h

theorem State.inPhase_eq {s : State} {p : Phase} (h : s.agent.phase = p) (run : StepOutcome) : s.inPhase p run = run := by
  simp [State.inPhase, h]

theorem State.withRange_eq {s : State} {sp : Space} {a n : Nat} (h : s.inRange sp a n = true) (run : StepOutcome) :
    s.withRange sp a n run = run := by
  simp [State.withRange, h]

/-- Acquiring a handle changes nothing else of the host. -/
@[simp] theorem Agent.acquire_phase (a : Agent) (h : Handle) : (a.acquire h).phase = a.phase := by
  unfold Agent.acquire
  split <;> rfl

@[simp] theorem Agent.acquire_todo (a : Agent) (h : Handle) : (a.acquire h).todo = a.todo := by
  unfold Agent.acquire
  split <;> rfl

/-- Only the agents around the core have changed: the source and the record of its use, the host, the sink, and the count of
free values drawn; and a run that was over is over as it was (R180). -/
structure AgentsOnly (s t : State) : Prop where
  same  : t = { s with src := t.src, use := t.use, agent := t.agent, sink := t.sink, draws := t.draws }
  final : ∀ o, s.agent.phase = .terminated o → t.agent.phase = .terminated o

theorem AgentsOnly.refl (s : State) : AgentsOnly s s := ⟨rfl, fun _ h => h⟩

theorem AgentsOnly.finish (s : State) (o : RunOutcome) : AgentsOnly s (s.finish o) := by
  unfold State.finish
  split
  · exact AgentsOnly.refl s
  · rename_i hne
    exact ⟨rfl, fun o' h => absurd h (hne o')⟩

/-- A change of the agents that keeps a run over when it was. -/
theorem AgentsOnly.mk' {s t : State} (same : t = { s with src := t.src, use := t.use, agent := t.agent, sink := t.sink, draws := t.draws })
    (phase : t.agent.phase = s.agent.phase) : AgentsOnly s t := ⟨same, fun _ h => phase ▸ h⟩

theorem State.jump_next {s t : State} {l : Nat} (h : s.jump l = .next t) : AgentsOnly s t := by
  unfold State.jump at h
  split at h
  · obtain rfl := Host.Outcome.next.inj h
    exact AgentsOnly.mk' rfl rfl
  · simp at h

theorem State.handOver_next {s t : State} {count : Nat} (h : s.handOver count = .next t) : AgentsOnly s t := by
  obtain ⟨-, h⟩ := State.withRange_next h
  obtain rfl := Host.Outcome.next.inj h
  exact AgentsOnly.mk' rfl rfl

/-- `open` on a stream that parses (R173, R176). -/
theorem State.openContainer_of_ok {s : State} {f : StreamFormat} {first : Nat} (hp : s.agent.phase = .init)
    (h : parseContainer s.agent.profile s.src s.src.cursor = .ok (f, first)) :
    s.openContainer = .next { s with
      src := { s.src with cursor := first, fit := true }
      use := s.use.touch
      agent := { s.agent.acquire .buffers with
        todo := openScript f.samplingRate f.isLsbFirst f.totalSamples f.blockSize ++ .configured :: s.agent.todo } } := by
  rw [State.openContainer, State.inPhase_eq hp, h]

/-- `open` on a stream that does not (R174, R175). -/
theorem State.openContainer_of_error {s : State} {e : ParseError} (hp : s.agent.phase = .init)
    (h : parseContainer s.agent.profile s.src s.src.cursor = .error e) :
    s.openContainer = .next ({ s with
      src := { s.src with cursor := Config.freePosition s.draws, discarded := true }
      use := s.use.touch
      draws := s.draws + 1 }.finish (.formatError e)) := by
  rw [State.openContainer, State.inPhase_eq hp, h]

theorem State.openContainer_next {s t : State} (h : s.openContainer = .next t) : AgentsOnly s t := by
  obtain ⟨hp, h⟩ := State.inPhase_next h
  split at h
  · obtain rfl := Host.Outcome.next.inj h
    exact AgentsOnly.mk' rfl (Agent.acquire_phase ..)
  · obtain rfl := Host.Outcome.next.inj h
    refine ⟨?_, fun o ho => by simp [hp] at ho⟩
    simp only [State.finish, hp]

theorem State.negotiate_next {s t : State} (h : s.negotiate = .next t) : AgentsOnly s t := by
  obtain ⟨hp, h⟩ := State.inPhase_next h
  dsimp only at h
  split at h
  · obtain rfl := Host.Outcome.next.inj h
    exact ⟨rfl, fun o ho => by simp [hp] at ho⟩
  · obtain rfl := Host.Outcome.next.inj h
    refine ⟨?_, fun o ho => by simp [hp] at ho⟩
    simp only [State.finish, hp]

theorem State.writeFrames_next {s t : State} (h : s.writeFrames = .next t) : AgentsOnly s t := by
  obtain ⟨hp, h⟩ := State.inPhase_next h
  obtain ⟨-, h⟩ := State.withRange_next h
  dsimp only at h
  split at h
  · split at h
    · obtain rfl := Host.Outcome.next.inj h
      refine ⟨?_, fun o ho => by simp [hp] at ho⟩
      simp only [State.finish, hp]
    · obtain rfl := Host.Outcome.next.inj h
      exact AgentsOnly.mk' rfl rfl
  · obtain rfl := Host.Outcome.next.inj h
    refine ⟨?_, fun o ho => by simp [hp] at ho⟩
    simp only [State.finish, hp]

/-- A source that has been released yields nothing (R185). -/
theorem Source.read_close (src : Source) (k : Nat) : src.close.read k = some ([], src.close) := by
  unfold Source.read
  split
  · rfl
  · simp [Source.close, Source.yield, Source.bytesAt]

theorem State.issueWord_next {s t : State} {w : Word32} (h : s.issueWord w = .next t) :
    ∃ i, decode w = .ok i ∧ exec i s = .next t := by
  unfold State.issueWord at h
  split at h
  · exact ⟨_, ‹_›, h⟩
  · simp at h

theorem State.issueCommand_next {s t : State} {i : Instr} (h : s.issueCommand i = .next t) :
    i.wellFormed = true ∧ s.issueWord (encode i) = .next t := by
  unfold State.issueCommand at h
  split at h
  · exact ⟨‹_›, h⟩
  · simp at h

/-- The action issues the command word `w`: it writes it to `CMD`, or is a command by its mnemonic (R90, R96, R97). -/
def HostAction.issues (a : HostAction) (s : State) (w : Word32) : Prop :=
  (∃ v : Word64, a = .wr cmdReg v ∧ w = v.setWidth 32) ∨ (∃ i, a = .command i ∧ i.wellFormed = true ∧ w = encode i) ∨
    (a = .encdR ∧ w = encode (.encd s.agent.r))

/-- Everything one host action can do (R96, R190): run a command; write a register; load bytes into `CH` or `OUT`; reset
the core; or change the agents around the core only. -/
theorem hostAct_next {a : HostAction} {s t : State} (h : hostAct a s = .next t) :
    (∃ w i, a.issues s w ∧ decode w = .ok i ∧ exec i s = .next t) ∨
      (∃ reg v, a = .wr reg v ∧ reg < 15 ∧ reg ≠ cmdReg ∧ t = s.writeReg reg v) ∨
      (∃ sp addr bytes, a = .ld sp addr bytes ∧ s.inRange sp.space addr bytes.length = true ∧
        t = s.writeBytes sp.space addr bytes) ∨
      (a = .resetCore ∧ t = s.resetCore) ∨ AgentsOnly s t := by
  cases a with
  | wr reg v =>
    simp only [hostAct, State.hostWrite] at h
    split at h
    · simp at h
    · rename_i hlt
      split at h
      · rename_i hc
        obtain ⟨i, hd, h⟩ := State.issueWord_next h
        exact .inl ⟨_, i, .inl ⟨v, by rw [hc], rfl⟩, hd, h⟩
      · exact .inr (.inl ⟨reg, v, rfl, by omega, ‹_›, (Host.Outcome.next.inj h).symm⟩)
  | rd reg =>
    simp only [hostAct, State.hostRead] at h
    split at h
    · obtain rfl := Host.Outcome.next.inj h
      exact .inr (.inr (.inr (.inr (AgentsOnly.mk' rfl rfl))))
    · simp at h
  | rdResultToR =>
    obtain rfl := Host.Outcome.next.inj h
    exact .inr (.inr (.inr (.inr (AgentsOnly.mk' rfl rfl))))
  | command i =>
    obtain ⟨hw, h⟩ := State.issueCommand_next h
    obtain ⟨j, hd, h⟩ := State.issueWord_next h
    exact .inl ⟨_, j, .inr (.inl ⟨i, rfl, hw, rfl⟩), hd, h⟩
  | ld sp addr bytes =>
    obtain ⟨h1, h⟩ := State.withRange_next h
    exact .inr (.inr (.inl ⟨sp, addr, bytes, rfl, h1, (Host.Outcome.next.inj h).symm⟩))
  | st sp addr count =>
    obtain ⟨-, h⟩ := State.withRange_next h
    obtain rfl := Host.Outcome.next.inj h
    exact .inr (.inr (.inr (.inr (AgentsOnly.mk' rfl rfl))))
  | sink count => exact .inr (.inr (.inr (.inr (State.handOver_next h))))
  | encdR =>
    obtain ⟨-, h⟩ := State.issueCommand_next h
    obtain ⟨i, hd, h⟩ := State.issueWord_next h
    exact .inl ⟨_, i, .inr (.inr ⟨rfl, rfl⟩), hd, h⟩
  | sinkR => exact .inr (.inr (.inr (.inr (State.handOver_next h))))
  | label l => exact Host.Outcome.next.inj h ▸ .inr (.inr (.inr (.inr (AgentsOnly.refl s))))
  | goto l => exact .inr (.inr (.inr (.inr (State.jump_next h))))
  | gotoIfResultZero l =>
    simp only [hostAct] at h
    split at h
    · exact .inr (.inr (.inr (.inr (State.jump_next h))))
    · exact Host.Outcome.next.inj h ▸ .inr (.inr (.inr (.inr (AgentsOnly.refl s))))
  | gotoIfRZero l =>
    simp only [hostAct] at h
    split at h
    · exact .inr (.inr (.inr (.inr (State.jump_next h))))
    · exact Host.Outcome.next.inj h ▸ .inr (.inr (.inr (.inr (AgentsOnly.refl s))))
  | attach stream more answers thereafter fit =>
    obtain rfl := Host.Outcome.next.inj h
    exact .inr (.inr (.inr (.inr (AgentsOnly.mk' rfl (Agent.acquire_phase ..)))))
  | openContainer => exact .inr (.inr (.inr (.inr (State.openContainer_next h))))
  | configured =>
    obtain ⟨hp, h⟩ := State.inPhase_next h
    obtain rfl := Host.Outcome.next.inj h
    exact .inr (.inr (.inr (.inr ⟨rfl, fun o ho => by simp [hp] at ho⟩)))
  | negotiate => exact .inr (.inr (.inr (.inr (State.negotiate_next h))))
  | writeFramesR => exact .inr (.inr (.inr (.inr (State.writeFrames_next h))))
  | checkErr =>
    simp only [hostAct] at h
    split at h
    · exact Host.Outcome.next.inj h ▸ .inr (.inr (.inr (.inr (AgentsOnly.refl s))))
    · exact Host.Outcome.next.inj h ▸ .inr (.inr (.inr (.inr (AgentsOnly.finish s _))))
  | terminate o => exact Host.Outcome.next.inj h ▸ .inr (.inr (.inr (.inr (AgentsOnly.finish s _))))
  | resetCore => exact .inr (.inr (.inr (.inl ⟨rfl, (Host.Outcome.next.inj h).symm⟩)))

/-- The state an action of the script runs in: the action taken off the script. -/
def State.popped (s : State) (rest : List HostAction) : State := { s with agent := { s.agent with todo := rest } }

theorem step_idle {s : State} (h : s.agent.todo = []) : step s = .next s := by simp [step, h]

theorem step_cons {s : State} {a : HostAction} {rest : List HostAction} (h : s.agent.todo = a :: rest) :
    step s = hostAct a (s.popped rest) := by simp [step, h, State.popped]

/-- Everything one step can do: nothing, when the host has nothing to do (R214), or the host's next action. -/
theorem step_next {s t : State} (h : step s = .next t) :
    s.agent.todo = [] ∧ t = s ∨ ∃ a rest, s.agent.todo = a :: rest ∧ hostAct a (s.popped rest) = .next t := by
  cases hd : s.agent.todo with
  | nil =>
    rw [step_idle hd] at h
    exact .inl ⟨rfl, (Host.Outcome.next.inj h).symm⟩
  | cons a rest =>
    rw [step_cons hd] at h
    exact .inr ⟨a, rest, rfl, h⟩

/-- One step of a run. -/
theorem core_run_succ {s t : State} (h : step s = .next t) (k : Nat) :
    Sys2Proof.core.run (k + 1) s = Sys2Proof.core.run k t := by
  have h' : Sys2Proof.core.step s = .next t := h
  simp only [Host.Core.run, h']

/-- One step of a run, by the action the host does in it. -/
theorem core_run_cons {s t : State} {a : HostAction} {rest : List HostAction} {k : Nat} (h : s.agent.todo = a :: rest)
    (ha : hostAct a (s.popped rest) = .next t) : Sys2Proof.core.run (k + 1) s = Sys2Proof.core.run k t :=
  core_run_succ ((step_cons h).trans ha) k

end Sys2Proof.Machine
end

