-- ==== Sys2Proof/Tests/Slice0.lean ====
section
/-! SUPPORT. The model's own tests. Expected values come from spec/95_test_vectors.md (the vector is named), from the
encodings of spec/30_encoding.md written out bit by bit, or from the rule named. After them, for every obligation with
hypotheses, a witness: concrete data that meets all of them together. -/

namespace Sys2Proof.Tests

open Sys2Proof.Machine

/-! ## Well-formed terms -/

/-- A count of 2^24 fits no operand field (R92): one ill-formed term for each of the three checks, and its neighbour. -/
theorem test_wellFormed_read : (Instr.read 16777216).wellFormed = false ∧ (Instr.read 16777215).wellFormed = true := by
  decide
theorem test_wellFormed_encd : (Instr.encd 16777216).wellFormed = false ∧ (Instr.encd 16777215).wellFormed = true := by
  decide
theorem test_wellFormed_encp : (Instr.encp 16777216).wellFormed = false ∧ (Instr.encp 16777215).wellFormed = true := by
  decide

/-! ## Words written out from the encodings of R93: `op` in bits 31:24, `opnd` in bits 23:0 -/

theorem test_decode_init : decode 0b00000001_00000000_00000000_00000000 = .ok .init := by decide
theorem test_decode_read : decode 0b00000010_10000000_00000001_00000100 = .ok (.read 8388868) := by decide
theorem test_decode_encd : decode 0b00000011_00000000_00000000_00001000 = .ok (.encd 8) := by decide
theorem test_decode_encp : decode 0b00000100_00000001_00000000_00000011 = .ok (.encp 65539) := by decide
theorem test_decode_rev : decode 0b00000101_00000000_00000000_00011010 = .ok (.rev 0x1A) := by decide
theorem test_decode_norm : decode 0b00000110_00000000_00000000_10000001 = .ok (.norm 0x81) := by decide

/-- V-DC-1, V-DC-2, V-DC-3: no such opcode. -/
theorem test_decode_reserved_opcode :
    decode 0x00000000 = .error (.reservedOpcode 0x00) ∧ decode 0x07000000 = .error (.reservedOpcode 0x07) ∧
      decode 0xFF000004 = .error (.reservedOpcode 0xFF) := by decide
/-- V-IN-5, V-BR-14, V-DC-7: operand bits that must be 0. -/
theorem test_decode_reserved_operand :
    decode 0x01000001 = .error (.initOperand 1) ∧ decode 0x05000100 = .error (.byteOperand 1) ∧
      decode 0x06010000 = .error (.byteOperand 0x100) := by decide

/-- No two rows of the opcode table claim one word: two rows differ in a bit both of them fix. -/
theorem test_opcode_rows_disjoint :
    opcodeRows.Pairwise fun a b => a.pattern &&& (a.mask &&& b.mask) ≠ b.pattern &&& (a.mask &&& b.mask) := by decide

/-! ## Small states -/

/-- Eight bytes of everything, and 24 of `OUT`. -/
def smallBuild : Build := { blkszMax := 8, chCap := 8, outSpare := 0, strictDuties := false }

/-- The registers `OPEN 2822400, lsbf, total, blksz` leaves (R97, R131). -/
def openRegs (lsbf : Bool) (total : Word64) (blksz : Word32) : Regs :=
  { Regs.reset with
    cfgSrate := 2822400, cfgLsbf := lsbf, cfgTotal := total, cfgBlksz := blksz, fmtSrate := 2822400, fmtLsbf := lsbf,
    fmtTotal := total, rdBlksz := blksz }

/-- Bytes from address 0 up. -/
def bytesAt0 (bytes : List Byte) : Memory := Memory.writeList [] 0 bytes

/-- A state after `OPEN`, with a stream and what the two `CH` hold. -/
def opened (lsbf : Bool) (total : Word64) (blksz : Word32) (stream ch0 ch1 : List Byte) : State :=
  { State.reset with
    build := smallBuild, regs := openRegs lsbf total blksz, ch0 := bytesAt0 ch0, ch1 := bytesAt0 ch1
    src := { Source.detached with stream := stream } }

/-- A state with a block in `BUF`, `pos` bytes per channel of it served, `emitted` bits counted. -/
def buffered (s : State) (buf : List Byte) (filled pos : Word32) (emitted : Word64) : State :=
  { s with
    buf := bytesAt0 buf
    regs := { s.regs with rdFilled := filled, rdPos := pos, rdEmitted := emitted } }

/-- A state whose host has these actions to do. -/
def scripted (s : State) (todo : List HostAction) : State := { s with agent := { s.agent with todo := todo } }

/-- What holds of the next state, if there is one. -/
def nextSat (o : StepOutcome) (p : State → Bool) : Bool :=
  match o with
  | .next t => p t
  | _ => false

/-- The two-block-group stream of 95_test_vectors.md. -/
def s16 : List Byte :=
  [0xA0, 0xA1, 0xA2, 0xA3, 0xB0, 0xB1, 0xB2, 0xB3, 0xA4, 0xA5, 0xA6, 0xA7, 0xB4, 0xB5, 0xB6, 0xB7]

/-! ## One step of each command -/

/-- V-BR-5. -/
theorem test_rev : nextSat (exec (.rev 0x1A) State.reset) (fun t => t.regs.result == 0x58) = true := by decide
/-- V-BR-13: a command that succeeds clears `ERR`. -/
theorem test_rev_clears_err :
    nextSat (exec (.rev 0x00) (State.reset.setOutcome 0 1)) (fun t => t.regs.statusErr == 0 && t.regs.result == 0) =
      true := by decide
/-- V-BR-10. -/
theorem test_norm_msb : nextSat (exec (.norm 0x06) (opened false 64 4 [] [] [])) (fun t => t.regs.result == 0x06) =
    true := by decide
/-- V-BR-11. -/
theorem test_norm_lsb : nextSat (exec (.norm 0x06) (opened true 64 4 [] [] [])) (fun t => t.regs.result == 0x60) =
    true := by decide
/-- V-IN-1, from a reader in mid-stream. -/
theorem test_init :
    nextSat (exec .init (buffered { opened false 64 4 s16 [] [] with regs := { openRegs true 1 9 with
      cfgLsbf := false, cfgTotal := 64, cfgBlksz := 4 } } s16 7 3 24)) (fun t => t.regs == openRegs false 64 4) =
      true := by decide
/-- V-RD-3, first call: one request over two block groups. -/
theorem test_read_two_blocks :
    nextSat (exec (.read 6) (opened false 64 4 s16 [] [])) (fun t =>
      t.regs == { openRegs false 64 4 with rdFilled := 4, rdPos := 2, rdEmitted := 48, result := 6 } &&
      t.ch0 == bytesAt0 [0xA0, 0xA1, 0xA2, 0xA3, 0xA4, 0xA5] &&
      t.ch1 == bytesAt0 [0xB0, 0xB1, 0xB2, 0xB3, 0xB4, 0xB5] && t.src.cursor == 16) = true := by decide
/-- V-RD-4a, second call: truncation at the declared count. -/
theorem test_read_truncates :
    nextSat (exec (.read 4) (buffered (opened false 48 4 (s16.drop 8) [] []) (s16.take 8) 4 4 32)) (fun t =>
      t.regs == { openRegs false 48 4 with rdFilled := 4, rdPos := 4, rdEmitted := 48, result := 2 } &&
      t.ch1 == bytesAt0 [0xB4, 0xB5, 0xB6, 0xB7]) = true := by decide
/-- V-ED-2. -/
theorem test_encd_lsb :
    nextSat (exec (.encd 4) (opened true 64 4 [] [1, 2, 3, 4] [5, 6, 7, 8])) (fun t =>
      t.out == bytesAt0 [0x80, 0x40, 0xC0, 0x20, 0xA0, 0x60, 0xE0, 0x10] && t.regs.result == 8) = true := by decide
/-- V-ED-5: the whole group of a request of six; the four bytes after it are free. -/
theorem test_encd_partial_group :
    nextSat (exec (.encd 6) (opened false 64 4 [] [1, 2, 3, 4, 5, 6] [17, 18, 19, 20, 21, 22])) (fun t =>
      t.out.take 8 == bytesAt0 [1, 2, 3, 4, 17, 18, 19, 20] && t.out.length == 12 && t.regs.result == 12) =
      true := by decide
/-- V-EP-4, the marker bytes apart. -/
theorem test_encp_lsb :
    nextSat (exec (.encp 4) (opened true 64 4 [] [1, 2, 3, 4] [5, 6, 7, 8])) (fun t =>
      t.out.filter (fun c => c.1 % 3 != 0) ==
        [(1, 0x80), (2, 0x40), (4, 0xA0), (5, 0x60), (7, 0xC0), (8, 0x20), (10, 0xE0), (11, 0x10)] &&
      t.regs.result == 12) = true := by decide
/-- V-EP-5. -/
theorem test_encp_odd :
    nextSat (exec (.encp 3) { opened true 64 4 [] [] [] with out := bytesAt0 [9] }) (fun t =>
      t.out == bytesAt0 [9] && t.regs == { openRegs true 64 4 with statusErr := 1 }) = true := by decide

/-! ## The machine around the commands -/

/-- Reset's memories have the canonical form. -/
theorem test_reset_memory_wf : ∀ sp ∈ [Space.buf, .ch 0, .ch 1, .out], (State.reset.mem sp).wf := by decide
/-- Writing out of order gives one canonical list. -/
theorem test_memory_canonical :
    Memory.write (Memory.write [] 5 1) 2 3 = [(2, 3), (5, 1)] ∧ Memory.write [(2, 3), (5, 1)] 5 7 = [(2, 3), (5, 7)] := by
  decide
/-- V-DC-8, V-DC-10: `CMD` reads 0 and `NCH` reads 2. -/
theorem test_register_reads : State.reset.readReg 12 = some 0 ∧ State.reset.readReg 0 = some 2 := by decide
/-- V-DC-9: a write of a read-only register has no effect. -/
theorem test_read_only :
    nextSat (State.reset.hostWrite 13 5) (· == State.reset) = true ∧
      nextSat (State.reset.hostWrite 7 5) (· == State.reset) = true ∧
      nextSat (State.reset.hostWrite 0 1) (· == State.reset) = true := by decide
/-- R8: `READ_CHUNK` is at least 1, at most `CH_CAP`, a multiple of 4. -/
theorem test_read_chunk_range :
    (pipelineScript smallBuild 8).isSome = true ∧ (pipelineScript smallBuild 4).isSome = true ∧
      pipelineScript smallBuild 0 = none ∧ pipelineScript smallBuild 6 = none ∧ pipelineScript smallBuild 12 = none := by
  decide
/-- R97: a read of another register leaves `r` alone, `RD RESULT -> r` sets it. -/
theorem test_r_takes_result :
    let s := { State.reset with regs := { Regs.reset with result := 7, cfgTotal := 5 }, agent := { Agent.idle with r := 3 } }
    nextSat (s.hostRead 3) (fun t => t.agent.r == 3 && t.agent.shown == 5) = true ∧ s.hostReadResult.agent.r = 7 := by
  decide
/-- V-RD-7a, second call: a short refill served in part of the request, then nothing: all of it is unreported. -/
theorem test_read_short_group_lost :
    nextSat (exec (.read 4) (buffered (opened false 1000 4 [0xC0, 0xC1, 0xC2, 0xC3, 0xD0, 0xD1] (s16.take 4) [0xB0, 0xB1,
      0xB2, 0xB3]) (s16.take 8) 4 4 32)) (fun t =>
        t.regs == { openRegs false 1000 4 with rdFilled := 3, rdPos := 3, rdEmitted := 32 } &&
        t.ch0 == bytesAt0 [0xC0, 0xC1, 0xC2, 0xA3] && t.ch1 == bytesAt0 [0xD0, 0xD1, 0xB2, 0xB3]) = true := by decide
/-- A placed word runs as the first command after reset (V-BR-5's word). -/
theorem test_first_command :
    nextSat (step (State.reset.withFetchWord 32 0x0500001A)) (fun t => t.regs.result == 0x58) = true := by decide

/-! ## Witnesses: for each obligation with hypotheses, data that meets them -/

/-- The invariant holds of a state after `OPEN` whose numbers are in order. -/
theorem opened_inv : (opened false 48 4 s16 [1, 2] [3, 4]).Inv :=
  ⟨by decide, by decide, by decide, by decide, by decide⟩

/-- The same state in mid-stream. -/
theorem buffered_inv : (buffered (opened false 48 4 s16 [] []) (s16.take 8) 4 2 16).Inv :=
  ⟨by decide, by decide, by decide, by decide, by decide⟩

theorem wit_DecodeOfEncode : (Instr.encp 16777215).wellFormed = true ∧ Instr.init.wellFormed = true := by decide
theorem wit_EncodeOfDecode : decode 0x02FFFFFF = .ok (.read 16777215) := by decide
/-- The smallest and largest reserved words of each kind R94 lists, and the last clause's state. -/
theorem wit_ReservedWordsAreRefused :
    (decode 0x00000000).toOption = none ∧ (decode 0x00FFFFFF).toOption = none ∧ (decode 0x01000001).toOption = none ∧
      (decode 0x01FFFFFF).toOption = none ∧ (decode 0x05000100).toOption = none ∧ (decode 0x05FFFFFF).toOption = none ∧
      (decode 0x06000100).toOption = none ∧ (decode 0x06FFFFFF).toOption = none ∧ (decode 0x07000000).toOption = none ∧
      (decode 0xFFFFFFFF).toOption = none ∧
      (scripted State.reset [.wr 12 0]).agent.todo = [.wr 12 0] ∧ (0 : Word64).setWidth 32 = (0 : Word32) := by decide
theorem wit_StepRunsTheCommandWritten :
    (scripted State.reset [.wr 12 0x0500001A]).agent.todo = [.wr 12 0x0500001A] ∧
      decode ((0x0500001A : Word64).setWidth 32) = .ok (.rev 0x1A) := by decide
/-- A line by its mnemonic, at the largest count a word holds and the smallest that none does; and `ENCD r` at both. -/
theorem wit_CommandLinesRunTheirCommand :
    (∀ n ∈ [16777215, 16777216], (scripted State.reset [.command (.read n)]).agent.todo = .command (.read n) :: []) ∧
      (Instr.read 16777215).wellFormed = true ∧ (Instr.read 16777216).wellFormed = false ∧
      (∀ r ∈ [16777215, 16777216],
        ({ State.reset with agent := { Agent.idle with todo := [.encdR], r := r } } : State).agent.todo = .encdR :: []) := by
  decide
theorem wit_PlacedWordRunsNext : decodeTableWord 32 0x06000081 = some (.norm 0x81) := by decide
theorem wit_TableReversesTheBitOrder : 0 < 8 ∧ 7 < 8 := by decide
/-- The block size at its bound, `CFG_BLKSZ = BLKSZ_MAX`; and an `INIT` that completes. -/
theorem wit_InitActivatesTheStagedFormat :
    let s := opened false 64 8 s16 [] []
    s.sourceReady ∧ s.regs.cfgBlksz.toNat ≤ s.build.blkszMax ∧ ∃ t, exec .init s = .next t :=
  ⟨by decide, by decide, _, rfl⟩
theorem wit_ReadZeroChangesNothing :
    let s := buffered (opened false 48 4 s16 [] []) s16 4 4 48
    s.sourceUsable 0 ∧ s.regs.rdEmitted.toNat ≤ s.regs.fmtTotal.toNat := by decide
theorem wit_ReadBeforeConfigurationReportsTheEnd :
    let s := State.reset
    s.sourceUsable 16777215 ∧ 0 < 16777215 ∧ 16777215 ≤ s.build.chCap ∧ s.regs.rdBlksz = 0 ∧ s.regs.rdFilled = 0 ∧
      s.regs.rdPos = 0 := by decide
/-- The request that empties the buffer. -/
theorem wit_ReadServesFromTheBuffer :
    let s := buffered (opened false 48 4 s16 [] []) (s16.take 8) 4 2 16
    s.sourceUsable 2 ∧ 0 < 2 ∧ 2 ≤ s.build.chCap ∧ s.readerOk ∧
      s.regs.rdPos.toNat + 2 ≤ s.regs.rdFilled.toNat := by decide
/-- A short refill of five bytes, all that it can serve asked for. -/
theorem wit_ReadRefillsAndServes :
    let s := opened false 48 4 (s16.take 5) [] []
    s.sourceUsable 2 ∧ 0 < 2 ∧ 2 ≤ s.build.chCap ∧ s.readerOk ∧ s.regs.rdPos = s.regs.rdFilled ∧
      s.src.read (2 * s.regs.rdBlksz.toNat) = some (s16.take 5, { s.src with cursor := 5 }) ∧
      2 ≤ (s16.take 5).length / 2 := by decide
/-- V-RD-10, second call. -/
theorem wit_ReadContinuesInTheNextBlock :
    let s := buffered (opened false 64 4 (s16.drop 8) [] []) (s16.take 8) 4 3 24
    s.sourceUsable 3 ∧ 3 ≤ s.build.chCap ∧ 3 < 2 ^ 24 ∧ s.readerOk ∧
      s.regs.rdPos.toNat + 1 = s.regs.rdFilled.toNat ∧ 0 < 1 ∧ 1 < 3 ∧
      s.src.read (2 * s.regs.rdBlksz.toNat) = some (s16.drop 8, { s.src with cursor := 8 }) ∧
      3 - 1 ≤ (s16.drop 8).length / 2 := by decide
/-- All of two block groups. -/
theorem wit_ReadDeinterleavesTheBlockGroups :
    let s := opened false 64 4 s16 [] []
    s.sourceUsable 8 ∧ s.src.answers = [] ∧ s.src.thereafter = none ∧ 8 ≤ s.build.chCap ∧ 8 < 2 ^ 24 ∧ s.readerOk ∧
      s.regs.rdPos = s.regs.rdFilled ∧ 0 < s.regs.rdBlksz.toNat ∧
      s.src.cursor + 2 * s.regs.rdBlksz.toNat * ((8 + s.regs.rdBlksz.toNat - 1) / s.regs.rdBlksz.toNat) ≤
        s.src.stream.length := by decide
theorem wit_ReferenceSourceYieldsTheNextBytes : (opened false 64 4 s16 [] []).src.isReference := by decide
/-- V-RD-11, first call: the source answers nothing once, with bytes still in it. -/
theorem wit_ReadAtEndOfStreamReportsZero :
    let s := { opened false 64 4 s16 [] [] with src := { Source.detached with stream := s16, answers := [.upTo 0] } }
    s.sourceUsable 4 ∧ 0 < 4 ∧ 4 ≤ s.build.chCap ∧ s.regs.rdPos = s.regs.rdFilled ∧
      s.src.read (2 * s.regs.rdBlksz.toNat) = some ([], { s.src with answers := [] }) := by decide
/-- A request that takes a block, a refill of one byte, which serves nothing, and a last refill of two. -/
theorem wit_ReadServesWhateverItsRefillsBring :
    let s := { opened false 64 4 [] [] [] with
      src := { Source.detached with stream := s16, answers := [.upTo 8, .upTo 1, .upTo 2] } }
    s.sourceUsable 5 ∧ 5 ≤ s.build.chCap ∧ 5 < 2 ^ 24 ∧ s.readerOk ∧
      s.src.yields (2 * s.regs.rdBlksz.toNat) ([s16.take 8, [0xA4]] ++ [[0xA5, 0xA6]])
        { s.src with cursor := 11, answers := [] } ∧
      s.regs.rdFilled.toNat - s.regs.rdPos.toNat + servable [s16.take 8, [0xA4]] < 5 ∧
      5 ≤ s.regs.rdFilled.toNat - s.regs.rdPos.toNat + servable [s16.take 8, [0xA4]] + [0xA5#8, 0xA6].length / 2 :=
  ⟨by decide, by decide, by decide, by decide,
    ⟨by decide, _, rfl, by decide, _, rfl, by decide, _, rfl, rfl⟩, by decide, by decide⟩
/-- V-RD-3, second call, with no refill that brings anything; V-RD-5, first call, with one; V-RD-7c, with one of a byte. -/
theorem wit_PartialReadIsNeverReported :
    (let s := buffered (opened false 64 4 [] [] []) (s16.drop 8) 4 2 48;
      s.sourceUsable 6 ∧ 6 ≤ s.build.chCap ∧ s.readerOk ∧ s.src.yields 8 [] s.src ∧
        s.src.read (2 * s.regs.rdBlksz.toNat) = some ([], s.src) ∧
        s.regs.rdFilled.toNat - s.regs.rdPos.toNat + servable [] < 6) ∧
    (let s := opened false 64 4 (s16.take 8) [] [];
      s.sourceUsable 6 ∧ 6 ≤ s.build.chCap ∧ s.readerOk ∧ s.src.yields 8 [s16.take 8] { s.src with cursor := 8 } ∧
        Source.read { s.src with cursor := 8 } 8 = some ([], { s.src with cursor := 8 }) ∧
        s.regs.rdFilled.toNat - s.regs.rdPos.toNat + servable [s16.take 8] < 6) ∧
    (let s := opened false 1000 4 [0xE0] [] [];
      s.sourceUsable 1 ∧ 1 ≤ s.build.chCap ∧ s.readerOk ∧ s.src.yields 8 [[0xE0]] { s.src with cursor := 1 } ∧
        Source.read { s.src with cursor := 1 } 8 = some ([], { s.src with cursor := 1 }) ∧
        s.regs.rdFilled.toNat - s.regs.rdPos.toNat + servable [[0xE0]] < 1) :=
  ⟨⟨by decide, by decide, by decide, rfl, by decide, by decide⟩,
    ⟨by decide, by decide, by decide, ⟨by decide, _, rfl, rfl⟩, by decide, by decide⟩,
    by decide, by decide, by decide, ⟨by decide, _, rfl, rfl⟩, by decide, by decide⟩
/-- A state that meets the invariant and whose source never answers. -/
def silent : State :=
  { opened false 48 4 s16 [] [] with src := { Source.detached with stream := s16, answers := [.never] } }
theorem silent_inv : silent.Inv := ⟨by decide, by decide, by decide, by decide, by decide⟩
/-- A state that meets the invariant, and an endless source that answers one byte each time; `laid` says of how many bytes it
is laid down which. -/
def useless (laid : List Byte) : State :=
  { opened false 48 4 [] [] [] with
    src := { Source.detached with stream := laid, more := some 0, thereafter := some 1 } }
theorem useless_inv : (useless [1, 2, 3]).Inv := ⟨by decide, by decide, by decide, by decide, by decide⟩
/-- A finite source, and an endless one that answers two bytes at a time. -/
theorem wit_ReadCompletesWhenTheSourceAnswers :
    (∃ s : State, s.Inv ∧ s.sourceUsable 8 ∧ s.sourceAnswers ∧ 8 ≤ s.build.chCap ∧ s.src.more = none) ∧
      ∃ s : State, s.Inv ∧ s.sourceUsable 8 ∧ s.sourceAnswers ∧ 8 ≤ s.build.chCap ∧ s.src.more ≠ none :=
  ⟨⟨_, opened_inv, by decide, by decide, by decide, by decide⟩,
    { useless [] with src := { (useless []).src with thereafter := some 2 } },
    ⟨by decide, by decide, by decide, by decide, by decide⟩, by decide, by decide, by decide, by decide⟩
/-- Both reasons. -/
theorem wit_ReadFaultsOnlyOnASourceThatHangsIt :
    (silent.Inv ∧ exec (.read 1) silent = .fault .sourceNeverAnswers) ∧
      (useless [1, 2, 3]).Inv ∧ exec (.read 1) (useless [1, 2, 3]) = .fault .readNeverEnds :=
  ⟨⟨silent_inv, rfl⟩, useless_inv, rfl⟩
theorem wit_ReadHangsOnAUselessSource :
    let s := useless []
    s.sourceUsable 1 ∧ 0 < 1 ∧ 1 ≤ s.build.chCap ∧ s.readerOk ∧ s.regs.rdPos = s.regs.rdFilled ∧ s.regs.rdBlksz ≠ 0 ∧
      s.src.answers = [] ∧ s.src.useless := by decide
theorem wit_ReadHangsOnASilentSource :
    silent.sourceUsable 1 ∧ 0 < 1 ∧ 1 ≤ silent.build.chCap ∧ silent.regs.rdPos = silent.regs.rdFilled ∧
      silent.regs.rdBlksz ≠ 0 ∧ silent.src.answers = .never :: [] := by decide
theorem wit_ReadWritesAtMostWhatWasAsked :
    ∃ s t : State, s.Inv ∧ exec (.read 4) s = .next t ∧ t.regs.result = 4 := ⟨_, _, opened_inv, rfl, by decide⟩
/-- An `INIT`; a `READ` that reports bytes; one that reports 0; and a command at the declared count. -/
theorem wit_EmittedNeverDecreases :
    (∃ s t : State, s.Inv ∧ exec .init s = .next t) ∧
      (∃ s t : State, s.Inv ∧ exec (.read 4) s = .next t ∧ t.regs.result = 4) ∧
      (∃ s t : State, s.Inv ∧ exec (.read 0) s = .next t ∧ t.regs.result = 0) ∧
      ∃ s t : State, s.Inv ∧ exec (.read 4) s = .next t ∧ s.regs.rdEmitted = s.regs.fmtTotal :=
  ⟨⟨_, _, opened_inv, rfl⟩, ⟨_, _, opened_inv, rfl, by decide⟩, ⟨_, _, opened_inv, rfl, by decide⟩,
    buffered (opened false 48 4 s16 [] []) (s16.take 8) 4 4 48, _,
    ⟨by decide, by decide, by decide, by decide, by decide⟩, rfl, by decide⟩
theorem wit_NothingIsReportedPastTheDeclaredCount :
    let s := buffered (opened false 48 4 s16 [] []) s16 4 4 48
    s.regs.rdEmitted = s.regs.fmtTotal ∧ ∃ t, exec (.read 4) s = .next t := ⟨by decide, _, rfl⟩
/-- V-RD-4a: the second of three `READ`s truncates, and `NORM` between them counts for nothing. -/
theorem wit_ReportedBytesAddUpToTheDeclaredCount :
    ∃ s t : State, s.Inv ∧ s.regs.rdEmitted = 0 ∧ (∀ i ∈ [Instr.read 4, .norm 9, .read 4, .read 4], i ≠ .init) ∧
      servedBy [.read 4, .norm 9, .read 4, .read 4] s = some (6, t) :=
  ⟨_, _, opened_inv, by decide, by decide, rfl⟩
theorem wit_EncdWritesDirectFrames : 8 ≤ (opened false 64 4 [] [] []).build.chCap ∧ 8 < 2 ^ 24 := by decide
theorem wit_EncdTailIsFree : ∃ t, exec (.encd 3) (opened false 64 4 [] [1, 2, 3] [4, 5, 6]) = .next t := ⟨_, rfl⟩
/-- V-ED-1 against V-ED-2. -/
theorem wit_EncdOfReversedBytesUndoesTheReversal :
    let s1 := opened true 64 4 [] [0x80, 0x40, 0xC0, 0x20] [0xA0, 0x60, 0xE0, 0x10]
    let s2 := opened false 64 4 [] [1, 2, 3, 4] [5, 6, 7, 8]
    4 % 4 = 0 ∧ s1.regs.fmtLsbf = true ∧ s2.regs.fmtLsbf = false ∧
      (∀ (c : Fin 2), ∀ a < 4, s1.readByte (.ch c) a = Rom.lookup (s2.readByte (.ch c) a)) ∧
      (∃ t, exec (.encd 4) s1 = .next t) ∧ ∃ t, exec (.encd 4) s2 = .next t :=
  ⟨by decide, by decide, by decide, by decide, ⟨_, rfl⟩, _, rfl⟩
/-- Both clauses: the largest odd count and the largest even one. -/
theorem wit_EncpWritesDopFrames :
    8 ≤ (opened false 64 4 [] [] []).build.chCap ∧ 8 < 2 ^ 24 ∧ 8 % 2 = 0 ∧
      7 ≤ (opened false 64 4 [] [] []).build.chCap ∧ 7 < 2 ^ 24 ∧ 7 % 2 = 1 := by decide
theorem wit_OddEncpRaisesFramingError : 7 ≤ (opened false 64 4 [] [] []).build.chCap ∧ 7 % 2 = 1 := by decide
/-- Both clauses: an odd count and an even one. -/
theorem wit_FramingErrorComesFromOddEncpOnly :
    (∃ t, exec (.encp 3) (opened false 64 4 [] [] []) = .next t) ∧
      ∃ t, exec (.encp 2) (opened false 64 4 [] [1, 2] [3, 4]) = .next t := ⟨⟨_, rfl⟩, _, rfl⟩
theorem wit_OnlyReadTouchesTheBufferAndTheSource :
    (Instr.encd 4).isRead = false ∧ ∃ t, exec (.encd 4) (opened false 64 4 s16 [1, 2, 3, 4] [5, 6, 7, 8]) = .next t :=
  ⟨by decide, _, rfl⟩
/-- Actions that read and write the other memories, next to a `BUF` with bytes in it. -/
theorem wit_TheReaderAloneAccessesTheBuffer :
    ∀ a ∈ [HostAction.sink 8, .ld .out 0 [1], .st (.ch 0) 0 2, .wr 12 0x01000000, .command (.encd 4)],
      (scripted (buffered (opened false 48 4 s16 [] []) s16 4 2 16) [a]).agent.todo = a :: [] ∧ a.isRead = false ∧
        a ≠ .resetCore := by decide
/-- Each clause: an `INIT`, another command, the two ways to touch the source of a stream in use, a reset event, and a `READ`
on a touched source, which runs. -/
theorem wit_ATouchedSourceIsReadAsItStands :
    let s := { opened false 48 4 s16 [] [] with use := .inUse }
    (∃ t, exec .init s = .next t) ∧ (Instr.read 4 ≠ .init ∧ ∃ t, exec (.read 4) s = .next t) ∧
      (s.use = .inUse ∧ (∃ t, step (scripted s [.attach s16 none [] none true]) = .next t) ∧
        ∃ t, step (scripted s [.openContainer]) = .next t) ∧
      (∃ t, step (scripted s [.resetCore]) = .next t) ∧
      s.build.strictDuties = false ∧
      ∃ t, exec (.read 4) { s with use := .touched } = .next t ∧ t.regs.result = 4 := by
  exact ⟨⟨_, rfl⟩, ⟨by decide, _, rfl⟩, ⟨rfl, ⟨_, rfl⟩, _, rfl⟩, ⟨_, rfl⟩, rfl, _, rfl, by decide⟩
/-- The state of a stream whose source the host has touched, where R191 is followed; a block of four is in `BUF`, two of it
served. -/
def touchedStrict : State :=
  { buffered (opened false 64 4 s16 [] []) (s16.take 8) 4 2 16 with
    build := { smallBuild with strictDuties := true }, use := .touched }
/-- Each clause, where they meet: the smallest `READ` the buffer cannot serve; an `INIT` on an unfit source; the largest it
can serve, an `INIT` on a fit one, and a command that does not use the source. -/
theorem wit_UnderR191TheAffectedCommandIsRefused :
    let s := touchedStrict
    let u := { s with src := { s.src with fit := false } }
    (s.build.strictDuties = true ∧ s.src.discarded = false ∧ 3 ≤ s.build.chCap ∧ s.use = .touched ∧ s.regs.rdBlksz ≠ 0 ∧
      s.regs.rdFilled.toNat - s.regs.rdPos.toNat < 3) ∧
    (u.build.strictDuties = true ∧ u.src.discarded = false ∧ u.regs.cfgBlksz.toNat ≤ u.build.blkszMax ∧
      u.src.fit = false) ∧
    2 ≤ s.regs.rdFilled.toNat - s.regs.rdPos.toNat ∧ s.src.fit = true ∧
      (∃ t, exec (.read 2) s = .next t) ∧ (∃ t, exec .init s = .next t) ∧ ∃ t, exec (.encd 4) u = .next t := by
  exact ⟨by decide, by decide, by decide, by decide, ⟨_, rfl⟩, ⟨_, rfl⟩, _, rfl⟩
/-- R191, from reset: a source attached as unfit, and one attached after an `INIT`. -/
theorem test_reset_follows_R191 :
    exec .init (State.reset.attachSource s16 none [] none false) = .refused .sourceUnfit ∧
      exec (.read 1)
          ({ State.reset with use := .inUse, regs := { Regs.reset with rdBlksz := 4 } }.attachSource s16 none [] none true) =
        .refused .sourceTouched := ⟨rfl, rfl⟩
theorem wit_OnlyInitWritesTheActiveFormat :
    Instr.read 4 ≠ .init ∧ ∃ t, exec (.read 4) (opened false 64 4 s16 [] []) = .next t := ⟨by decide, _, rfl⟩
/-- The clauses: a step that keeps the format, an `INIT` that changes it, by its word or its mnemonic, and a reset. -/
theorem wit_FormatChangesOnlyAtInitOrReset :
    (∃ t, step (scripted (opened false 64 4 [] [] []) [.wr 3 9]) = .next t ∧ t.regs.fmtTotal = 64) ∧
      (∃ t, step (scripted { State.reset with regs := { Regs.reset with cfgTotal := 9 } } [.wr 12 0x01000000]) = .next t ∧
        t.regs.fmtTotal = 9) ∧
      (∃ t, step (scripted { State.reset with regs := { Regs.reset with cfgTotal := 9 } } [.command .init]) = .next t ∧
        t.regs.fmtTotal = 9) ∧
      ∃ t, step (scripted (opened false 64 4 [] [] []) [.resetCore]) = .next t ∧ t.regs.fmtTotal = 0 :=
  ⟨⟨_, rfl, by decide⟩, ⟨_, rfl, by decide⟩, ⟨_, rfl, by decide⟩, _, rfl, by decide⟩
/-- A state that meets the invariant and steps by a `READ`. -/
theorem wit_StepKeepsTheInvariant :
    let s := scripted (buffered (opened false 48 4 s16 [] []) (s16.take 8) 4 2 16) [.wr 12 0x02000002]
    s.Inv ∧ ∃ t, step s = .next t :=
  ⟨⟨by decide, by decide, by decide, by decide, by decide⟩, _, rfl⟩
/-- Each clause at the register numbers where it begins and ends: 0, the four staging registers, 5 and 11, 13 and 14, 15.
-/
theorem wit_HostWritesReachOnlyTheStagingRegisters :
    ∀ reg ∈ [0, 1, 2, 3, 4, 5, 11, 13, 14, 15], (scripted State.reset [.wr reg 5]).agent.todo = .wr reg 5 :: [] := by
  decide
theorem wit_HostReadsEveryRegister :
    ∀ reg ∈ [0, 1, 2, 3, 4, 5, 6, 7, 8, 9, 10, 11, 12, 13, 14, 15],
      (scripted State.reset [.rd reg]).agent.todo = .rd reg :: [] ∧
        (scripted State.reset [.rdResultToR]).agent.todo = .rdResultToR :: [] := by decide
/-- The last bytes of each memory the host can reach, and a load of nothing past the end's edge. -/
theorem wit_HostLoadsAreReadBack :
    let s := opened false 64 4 [] [] []
    6 + [1#8, 2].length ≤ s.build.size (HostSpace.ch 1).space ∧ 22 + [1#8, 2].length ≤ s.build.size HostSpace.out.space ∧
      8 + ([] : List Byte).length ≤ s.build.size (HostSpace.ch 0).space := by decide

/-- A container of R172 with the smallest chunk sizes: `S1 = 12`, `S2 = 48`. -/
def container (bits : Byte) : List Byte :=
  [0x44, 0x53, 0x44, 0x20] ++ [12, 0, 0, 0, 0, 0, 0, 0] ++
  [0x66, 0x6D, 0x74, 0x20] ++ [48, 0, 0, 0, 0, 0, 0, 0] ++
  [1, 0, 0, 0] ++ [0, 0, 0, 0] ++ [2, 0, 0, 0] ++ [2, 0, 0, 0] ++ [0x00, 0x11, 0x2B, 0x00] ++ [bits, 0, 0, 0] ++
  [64, 0, 0, 0, 0, 0, 0, 0] ++ [4, 0, 0, 0] ++
  [0x64, 0x61, 0x74, 0x61] ++ [28, 0, 0, 0, 0, 0, 0, 0] ++ s16

/-- A source that holds these bytes and ends. -/
def holding (stream : List Byte) : Source := { Source.detached with stream := stream }

/-- Both sides hold somewhere. E7: rate 2822400, bits-per-sample 8, block size 4, 64 samples; the first raw sample byte is at `S1 + S2 + 12`. -/
theorem wit_ParserAcceptsTheProfileOnly :
    parseContainer .dsf (holding (container 8)) 0 = .ok
      ({ samplingRate := 2822400, numChannels := 2, totalSamples := 64, isLsbFirst := false, blockSize := 4 }, 72) ∧
    parseContainer .dsf (holding (container 1)) 0 = .ok
      ({ samplingRate := 2822400, numChannels := 2, totalSamples := 64, isLsbFirst := true, blockSize := 4 }, 72) := by
  decide
/-- A container whose data tag is wrong and whose stream ends after it. -/
def cutShort : Source := holding ((container 8).take 60 ++ [0x64, 0x61, 0x74, 0x62, 28])
/-- The first bad field decides (R174): the wrong tag, not the size cut short after it. -/
theorem test_first_bad_field : parseContainer .dsf cutShort 0 = .error .dataMagic := by decide
/-- Each clause: a wrong first tag with nothing after it; a wrong second one; and the wrong third one above. -/
theorem wit_TheFirstBadTagDecides :
    (field (holding [0x44, 0x53, 0x44, 0x21]) 0 4 = .ok 0x21445344 ∧ 0x21445344 ≠ ContainerProfile.dsf.tagA.toNat) ∧
    (field (holding ((container 8).take 15 ++ [9])) 0 4 = .ok ContainerProfile.dsf.tagA.toNat ∧
      field (holding ((container 8).take 15 ++ [9])) 4 8 = .ok 12 ∧ 12 ≤ 12 ∧
      field (holding ((container 8).take 15 ++ [9])) 12 4 = .ok 0x09746D66 ∧
      0x09746D66 ≠ ContainerProfile.dsf.tagB.toNat) ∧
    (field cutShort 0 4 = .ok ContainerProfile.dsf.tagA.toNat ∧ field cutShort 4 8 = .ok 12 ∧
      field cutShort 12 4 = .ok ContainerProfile.dsf.tagB.toNat ∧ field cutShort 16 8 = .ok 48 ∧ 48 ≤ 48 ∧
      (parseFormat cutShort 12).toOption.isSome = true ∧ field cutShort 60 4 = .ok 0x62746164 ∧
      0x62746164 ≠ ContainerProfile.dsf.tagC.toNat) := by decide
/-- A host about to open a container. -/
def opening (bits : Byte) : State :=
  { scripted (opened true 0 0 (container bits) [] []) [.openContainer, .negotiate] with build := smallBuild }
/-- Bits-per-sample 7: neither 1 nor 8. -/
theorem wit_FailedParseSpoilsTheSource :
    let s := opening 7
    s.agent.todo = .openContainer :: [.negotiate] ∧ s.agent.phase = .init ∧
      parseContainer s.agent.profile s.src s.src.cursor = .error .bitsPerSample := by decide
theorem wit_SuccessfulParseConfiguresTheCore :
    let s := opening 8
    s.agent.todo = .openContainer :: [.negotiate] ∧ s.agent.phase = .init ∧ s.src.discarded = false ∧
      parseContainer s.agent.profile s.src s.src.cursor = .ok
        ({ samplingRate := 2822400, numChannels := 2, totalSamples := 64, isLsbFirst := false, blockSize := 4 }, 72) ∧
      4 ≤ s.build.blkszMax := by decide
/-- A run that ends by a sink error, the host holding all three handles. -/
theorem wit_TerminationReleasesEverything :
    let s := { opened false 64 4 s16 [] [] with agent := { Agent.idle with
      phase := .streaming, todo := [.terminate .sinkWriteError, .sinkR], held := [.sink, .buffers, .source] } }
    (∀ o, s.agent.phase ≠ .terminated o) ∧ ∃ t, step s = .next t ∧ t.agent.phase = .terminated .sinkWriteError ∧
      t.agent.released = [.sink, .buffers, .source] :=
  ⟨by simp, _, rfl, rfl, rfl⟩
/-- A run that is over, with a host that still has something to do. -/
theorem wit_TerminatedIsFinal :
    ∃ s t : State, s.agent.phase = .terminated .sinkWriteError ∧ step s = .next t :=
  ⟨{ State.reset with agent := { Agent.idle with phase := .terminated .sinkWriteError, todo := [.terminate .success] } },
    _, rfl, rfl⟩
/-- A host in a phase, with a sink that has these answers to give. -/
def playing (p : Phase) (todo : List HostAction) (r : Nat) (k : Sink) : State :=
  { opened false 64 4 s16 [] [] with agent := { Agent.idle with phase := p, todo := todo, r := r }, sink := k }
/-- A sink that accepts, one that refuses, and one with no answer laid down. -/
theorem wit_NegotiationConfiguresTheSink :
    ∀ answers ∈ [[true], [false], []],
      let s := playing .negotiating [.negotiate] 0 { Sink.closed with configAnswers := answers }
      s.agent.todo = .negotiate :: [] ∧ s.agent.phase = .negotiating ∧
        s.sink.configAnswers.headD true = (answers != [false]) := by decide
/-- Two frames submitted: both accepted; one short; an error; no answer laid down. -/
theorem wit_ShortSinkWriteIsFatal :
    ∀ answers ∈ [[some 2], [some 1], [none], []],
      let s := playing .streaming [.writeFramesR] 8 { Sink.closed with writeAnswers := answers }
      s.agent.todo = .writeFramesR :: [] ∧ s.agent.phase = .streaming ∧ 2 * s.agent.r ≤ s.build.outCap ∧
        s.sink.accepts (s.agent.r / 4) = answers.headD (some 2) := by decide

end Sys2Proof.Tests
end

section
/-! SUPPORT. What a command does commutes with changing what surrounds the core and the source: the host, the sink, and which of
the rules of log 25 is followed (00_scope.md R13, R16; 47_host_sequence.md R191). One commuting lemma per operation, one for
the loop of `READ`, one for `exec`; the two statements about what a command does not see follow. -/

namespace Sys2Proof.Machine

/-- The same core and source, with this choice of the rule on the duties of R191, this host and this sink around them. -/
def State.withSurroundings (strict : Bool) (a : Agent) (k : Sink) (s : State) : State :=
  { s with build := { s.build with strictDuties := strict }, agent := a, sink := k }

/-- Change the next state of an outcome, if it has one. -/
def mapNext (f : State → State) : StepOutcome → StepOutcome
  | .next t => .next (f t)
  | .fault e => .fault e
  | .refused r => .refused r

/-- Change the state a refill leaves, if it leaves one. -/
def Refill.mapState (f : State → State) : Refill → Refill
  | .data t => .data (f t)
  | .empty t => .empty (f t)
  | .stuck e => .stuck e

/-- Change the state the loop of `READ` ends in, if it ends in one. -/
def ReadEnd.mapState (f : State → State) : ReadEnd → ReadEnd
  | .served ret t => .served ret (f t)
  | .empty t => .empty (f t)
  | .stuck e => .stuck e

/-- The duty of R191 on the source that a command has to find kept, if it has one (log 25). -/
def State.sourceDutyKept (s : State) : Instr → Bool
  | .init => s.src.fit
  | .read n => s.sourceKept n
  | _ => true

/-- How `READ` ends, by how its loop ends (R132, R135, R136). -/
def ReadEnd.outcome : ReadEnd → StepOutcome
  | .served ret t => .next (t.report ret)
  | .empty t => .next (t.complete 0)
  | .stuck e => .fault e

/-- `INIT`: its host duties, in the order they are looked at, and the state it leaves (R131). -/
theorem exec_init_guards (s : State) :
    exec .init s = s.withSource (s.withBlock (s.withDuty s.src.fit .sourceUnfit
      (.next ({ s with regs := s.regs.activate, use := .inUse }.complete 0)))) := rfl

/-- `READ n`: its host duties, in the order they are looked at, and the loop they guard (R132). -/
theorem exec_read_guards (n : Nat) (s : State) :
    exec (.read n) s = s.withSource (s.withCount n (s.withDuty (s.sourceKept n) .sourceTouched
      (readLoop (s.readFuel n) n 0 s).outcome)) := rfl

/-- A broken duty of R191 refuses the command, where R191 is followed. -/
theorem State.withDuty_broken {s : State} {kept : Bool} (hs : s.build.strictDuties = true) (hk : kept = false)
    (r : Refusal) (run : StepOutcome) : s.withDuty kept r run = .refused r := by simp [State.withDuty, hs, hk]

/-- The host has broken the duty on the source of the stream just where it has touched it and `READ n` asks it for bytes. -/
theorem State.sourceKept_eq_false_iff (s : State) (n : Nat) :
    s.sourceKept n = false ↔
      s.use = .touched ∧ s.regs.rdBlksz ≠ 0 ∧ s.regs.rdFilled.toNat - s.regs.rdPos.toNat < n := by
  simp [State.sourceKept, State.asksSource]

section Surroundings
variable (strict : Bool) (a : Agent) (k : Sink) (s : State)

@[simp] theorem State.withSurroundings_regs : (s.withSurroundings strict a k).regs = s.regs := rfl
@[simp] theorem State.withSurroundings_src : (s.withSurroundings strict a k).src = s.src := rfl

theorem State.withSource_withSurroundings (run : StepOutcome) :
    (s.withSurroundings strict a k).withSource (mapNext (State.withSurroundings strict a k) run) =
      mapNext (State.withSurroundings strict a k) (s.withSource run) := by
  unfold State.withSource
  rw [apply_ite (mapNext _)]
  rfl

theorem State.withCount_withSurroundings (n : Nat) (run : StepOutcome) :
    (s.withSurroundings strict a k).withCount n (mapNext (State.withSurroundings strict a k) run) =
      mapNext (State.withSurroundings strict a k) (s.withCount n run) := by
  unfold State.withCount
  rw [apply_ite (mapNext _)]
  rfl

theorem State.withBlock_withSurroundings (run : StepOutcome) :
    (s.withSurroundings strict a k).withBlock (mapNext (State.withSurroundings strict a k) run) =
      mapNext (State.withSurroundings strict a k) (s.withBlock run) := by
  unfold State.withBlock
  rw [apply_ite (mapNext _)]
  rfl

/-- A duty of R191 shows only where it is broken and the two states differ in whether R191 is followed. -/
theorem State.withDuty_withSurroundings {kept : Bool} (h : strict = s.build.strictDuties ∨ kept = true) (r : Refusal)
    (run : StepOutcome) :
    (s.withSurroundings strict a k).withDuty kept r (mapNext (State.withSurroundings strict a k) run) =
      mapNext (State.withSurroundings strict a k) (s.withDuty kept r run) := by
  rcases h with rfl | hk
  · unfold State.withDuty
    rw [apply_ite (mapNext _)]
    rfl
  · rw [State.withDuty_eq (fun _ => hk), State.withDuty_eq (fun _ => hk)]

theorem State.refill_withSurroundings :
    (s.withSurroundings strict a k).refill = s.refill.mapState (State.withSurroundings strict a k) := by
  simp only [State.refill, State.withSurroundings_src, State.withSurroundings_regs]
  cases s.src.read (2 * s.regs.rdBlksz.toNat) with
  | none => rfl
  | some answer =>
    dsimp only
    rw [apply_ite (Refill.mapState _), apply_ite (Refill.mapState _)]
    rfl

theorem State.refillIfExhausted_withSurroundings :
    (s.withSurroundings strict a k).refillIfExhausted =
      s.refillIfExhausted.mapState (State.withSurroundings strict a k) := by
  unfold State.refillIfExhausted
  rw [State.refill_withSurroundings, apply_ite (Refill.mapState _)]
  rfl

/-- The loop of `READ` runs the same whatever surrounds the core and the source. -/
theorem readLoop_withSurroundings (fuel rem ret : Nat) :
    readLoop fuel rem ret (s.withSurroundings strict a k) =
      (readLoop fuel rem ret s).mapState (State.withSurroundings strict a k) := by
  induction fuel generalizing rem ret s with
  | zero => cases rem <;> rfl
  | succ fuel ih =>
    cases rem with
    | zero => rfl
    | succ rem =>
      rw [readLoop_step, readLoop_step, State.refillIfExhausted_withSurroundings]
      cases s.refillIfExhausted with
      | stuck f => rfl
      | empty t => rfl
      | data t =>
        dsimp only [Refill.mapState]
        rw [apply_ite (ReadEnd.mapState _), ← ih]
        rfl

/-- `READ` reports the same whatever surrounds the core and the source. -/
theorem ReadEnd.outcome_mapState (e : ReadEnd) :
    (e.mapState (State.withSurroundings strict a k)).outcome =
      mapNext (State.withSurroundings strict a k) e.outcome := by cases e <;> rfl

/-- Where both states follow the same of R191 and R215, or the duty they disagree on is kept, a command's outcome does not
depend on what surrounds the core and the source. -/
theorem exec_withSurroundings (i : Instr) (h : strict = s.build.strictDuties ∨ s.sourceDutyKept i = true) :
    exec i (s.withSurroundings strict a k) = mapNext (State.withSurroundings strict a k) (exec i s) := by
  cases i with
  | init =>
    rw [State.sourceDutyKept] at h
    rw [exec_init_guards s, ← State.withSource_withSurroundings, ← State.withBlock_withSurroundings,
      ← State.withDuty_withSurroundings _ _ _ _ h]
    rfl
  | read n =>
    rw [State.sourceDutyKept] at h
    rw [exec_read_guards n s, ← State.withSource_withSurroundings, ← State.withCount_withSurroundings,
      ← State.withDuty_withSurroundings _ _ _ _ h, ← ReadEnd.outcome_mapState, ← readLoop_withSurroundings]
    exact exec_read_guards n (s.withSurroundings strict a k)
  | encd n => exact State.withCount_withSurroundings strict a k s n (.next (s.afterEncd n))
  | encp n =>
    change _ = mapNext _ (s.withCount n _)
    rw [← State.withCount_withSurroundings, apply_ite (mapNext _)]
    rfl
  | rev b => rfl
  | norm b => rfl

end Surroundings

/-- Settles O46: `exec_withSurroundings` for the rule the state follows itself. -/
theorem commandsDoNotSeeHostOrSink : Obligations.CommandsDoNotSeeHostOrSink := by
  intro i s a k
  refine (exec_withSurroundings s.build.strictDuties a k s i (.inl rfl)).trans ?_
  cases h : exec i s with
  | next t => simp only [mapNext, State.withSurroundings, ← (exec_keeps h).build]
  | fault f => rfl
  | refused r => rfl

/-- Settles O43: the refusals are those of a broken duty; where it is kept, `exec_withSurroundings` for the rule of R215. -/
theorem underR191TheAffectedCommandIsRefused : Obligations.UnderR191TheAffectedCommandIsRefused := by
  refine ⟨fun s n hs hd hn hu hb hlt => ?_, fun s hs hd hb hf => ?_, fun i s hs hinit hread => ?_⟩
  · have hk : s.sourceKept n = false := (s.sourceKept_eq_false_iff n).2 ⟨hu, hb, hlt⟩
    rw [exec_read_guards, State.withSource_eq hd, State.withCount_eq hn, State.withDuty_broken hs hk]
  · rw [exec_init_guards, State.withSource_eq hd, State.withBlock_eq hb, State.withDuty_broken hs hf]
  · have hkept : s.sourceDutyKept i = true := by
      cases i with
      | init => exact hinit rfl
      | read n =>
        by_contra hk
        obtain ⟨hu, hb, hlt⟩ := (s.sourceKept_eq_false_iff n).1 (Bool.eq_false_of_not_eq_true hk)
        rcases hread n rfl hu with h0 | hle
        · exact hb h0
        · omega
      | encd | encp | rev | norm => rfl
    refine (exec_withSurroundings false s.agent s.sink s i (.inr hkept)).trans ?_
    cases h : exec i s with
    | next t => simp only [mapNext, State.withSurroundings, ← (exec_keeps h).agent, ← (exec_keeps h).sink]
    | fault f => rfl
    | refused r => rfl

end Sys2Proof.Machine
end

section
/-! SUPPORT. The decoder undoes the encoder, and takes one word only as `INIT` (30_encoding.md R91 to R94). -/

namespace Sys2Proof.Machine

/-- The encoder and the decoder agree (R91, R92, R93). -/
theorem decode_encode {i : Instr} (h : i.wellFormed = true) : decode (encode i) = .ok i := by
  cases i with
  | init => rfl
  | read n | encd n | encp n =>
    have hn : n < 2 ^ 24 := by simpa [Instr.wellFormed, countFits] using h
    simpa [decode, encode, Instr.opcode, Instr.operand, countOperand] using hn
  | rev b | norm b =>
    simp [decode, encode, Instr.opcode, Instr.operand, byteOperand, Except.map]

/-- The one word that is `INIT` (R93, R94). -/
theorem eq_initWord_of_decode {w : Word32} (h : decode w = .ok .init) : w = 0x01000000#32 := by
  have hfields : opField w = 0x01 ∧ opndField w = 0 := by
    unfold decode at h
    split at h
    · split at h
      · exact ⟨‹_›, ‹_›⟩
      · simp at h
    · unfold byteOperand at h
      split_ifs at h <;> simp [Except.map] at h
  rw [← commandWord_fields w, hfields.1, hfields.2]
  rfl

end Sys2Proof.Machine
end

section
/-! SUPPORT. The format registers and `RD_EMITTED` across a command and across a step: what leaves the active format alone
(10_state.md R24, R131), and what a `READ` makes of the count emitted (R32, 41_block_reader.md R136). -/

namespace Sys2Proof.Machine

/-- `t` has the active format of `s`: what `INIT` stages in, and the block size that goes with it (R23, R24, R29). -/
structure FormatKeeps (s t : State) : Prop where
  srate : t.regs.fmtSrate = s.regs.fmtSrate
  lsbf  : t.regs.fmtLsbf = s.regs.fmtLsbf
  total : t.regs.fmtTotal = s.regs.fmtTotal
  blksz : t.regs.rdBlksz = s.regs.rdBlksz

theorem ReadKeeps.format {lo hi : Nat} {s t : State} (h : ReadKeeps lo hi s t) : FormatKeeps s t := by
  constructor <;> rw [h.regs]

theorem AgentsOnly.regs {s t : State} (h : AgentsOnly s t) : t.regs = s.regs := by rw [h.same]

theorem AgentsOnly.format {s t : State} (h : AgentsOnly s t) : FormatKeeps s t := by constructor <;> rw [h.regs]

theorem State.writeReg_format (s : State) (reg : Nat) (v : Word64) : FormatKeeps s (s.writeReg reg v) := by
  unfold State.writeReg
  split <;> exact ⟨rfl, rfl, rfl, rfl⟩

theorem State.writeBytes_format (s : State) (sp : Space) (a : Nat) (bs : List Byte) :
    FormatKeeps s (s.writeBytes sp a bs) := by constructor <;> rw [State.writeBytes_regs]

/-- All that a command can change which is neither `INIT` nor `READ` (R124, R125, R151, R161). -/
theorem exec_changes_out_only {i : Instr} {s t : State} (hinit : i ≠ .init) (hread : i.isRead = false)
    (h : exec i s = .next t) :
    t = { s with
      out := t.out, draws := t.draws
      regs := { s.regs with result := t.regs.result, statusErr := t.regs.statusErr } } := by
  cases i with
  | init => exact absurd rfl hinit
  | read n => simp [Instr.isRead] at hread
  | encd n =>
    obtain ⟨-, rfl⟩ := exec_encd_next h
    rfl
  | encp n =>
    obtain ⟨-, ⟨-, rfl⟩ | ⟨-, rfl⟩⟩ := exec_encp_next h
    · rfl
    · rfl
  | rev b | norm b =>
    obtain rfl := Host.Outcome.next.inj h
    rfl

/-- No command but `INIT` writes the active format (R24). -/
theorem exec_format {i : Instr} {s t : State} (hinit : i ≠ .init) (h : exec i s = .next t) : FormatKeeps s t := by
  cases i with
  | init => exact absurd rfl hinit
  | read n =>
    obtain ⟨u, hu, rfl | rfl⟩ := exec_read_keeps h
    · exact ⟨hu.format.srate, hu.format.lsbf, hu.format.total, hu.format.blksz⟩
    · exact ⟨hu.format.srate, hu.format.lsbf, hu.format.total, hu.format.blksz⟩
  | encd n | encp n | rev b | norm b => constructor <;> rw [exec_changes_out_only hinit rfl h]

/-- What a `READ n` that completes makes of `RD_EMITTED`: it leaves it and reports 0, or it adds `8 * n` up to `FMT_TOTAL` and
reports `n` less the truncation (R135, R136). -/
theorem exec_read_emitted {s t : State} {n : Nat} (hcap : s.build.chCap < 2 ^ 32) (h : exec (.read n) s = .next t) :
    t.regs.result = 0 ∧ t.regs.rdEmitted = s.regs.rdEmitted ∨
      t.regs.result.toNat = n - (s.regs.rdEmitted.toNat + 8 * n - s.regs.fmtTotal.toNat) / 8 ∧
        t.regs.rdEmitted.toNat = min (s.regs.rdEmitted.toNat + 8 * n) s.regs.fmtTotal.toNat := by
  have hn : n ≤ s.build.chCap := (exec_read_next h).2.1
  obtain ⟨u, hu, rfl | rfl⟩ := exec_read_keeps h
  · right
    have hresult := u.regs.reported_toNat (ret := n) (by omega)
    have hemitted := u.report_emitted n
    rw [hu.emitted, hu.total] at hresult hemitted
    exact ⟨hresult, by omega⟩
  · exact .inl ⟨rfl, hu.emitted⟩

/-- Settles O44: `exec_format`. -/
theorem onlyInitWritesTheActiveFormat : Obligations.OnlyInitWritesTheActiveFormat := by
  intro i s t hi h
  obtain ⟨hsrate, hlsbf, htotal, hblksz⟩ := exec_format hi h
  exact ⟨hsrate, hlsbf, htotal, hblksz⟩

end Sys2Proof.Machine
end

section
/-! SUPPORT. The invariant of the machine (10_state.md R31, R32, R35; 20_memory.md R60, R62): the reset event restores it, and
every operation a step is made of keeps it. -/

namespace Sys2Proof.Machine

/-- The invariant on the memories, space by space. -/
theorem State.memoriesOk_iff (s : State) : s.memoriesOk ↔ ∀ sp, (s.mem sp).fits (s.build.size sp) := by
  constructor
  · rintro ⟨hbuf, hch0, hch1, hout⟩ sp
    match sp with
    | .buf => exact hbuf
    | .ch 0 => exact hch0
    | .ch 1 => exact hch1
    | .out => exact hout
  · exact fun h => ⟨h .buf, h (.ch 0), h (.ch 1), h .out⟩

theorem State.inRange_iff (s : State) (sp : Space) (a n : Nat) :
    s.inRange sp a n = true ↔ n = 0 ∨ a + n ≤ s.build.size sp := by simp [State.inRange]

theorem State.writeBytes_memoriesOk {s : State} {sp : Space} {a : Nat} {bs : List Byte} (hm : s.memoriesOk)
    (hr : s.inRange sp a bs.length = true) : (s.writeBytes sp a bs).memoriesOk := by
  rw [State.memoriesOk_iff] at hm ⊢
  intro sq
  rw [State.writeBytes_build]
  by_cases hq : sq = sp
  · subst hq
    rw [State.writeBytes_mem]
    rw [State.inRange_iff, List.length_eq_zero_iff] at hr
    exact Memory.fits_writeList (hm sq) hr
  · rw [State.writeBytes_mem_ne s a bs hq]
    exact hm sq

/-- Registers at their reset values and empty memories meet the invariant, whatever legal capacities they have (R40). -/
theorem State.inv_of_reset {s : State} (hbuild : s.build.wf) (hregs : s.regs = Regs.reset) (hmem : ∀ sp, s.mem sp = []) :
    s.Inv where
  build := hbuild
  reader := by simp [State.readerOk, hregs, Regs.reset]
  emitted := by simp [State.emittedOk, hregs, Regs.reset]
  status := .inl (by simp [hregs, Regs.reset])
  memories := s.memoriesOk_iff.2 fun sp => by simp [Memory.fits, hmem]

/-- The reset event leaves no byte of any memory listed (R230, log 8). -/
@[simp] theorem State.resetCore_mem (s : State) (sp : Space) : s.resetCore.mem sp = [] := by
  match sp with
  | .buf | .ch 0 | .ch 1 | .out => rfl

theorem State.Inv.resetCore {s : State} (h : s.Inv) : s.resetCore.Inv :=
  State.inv_of_reset h.build rfl s.resetCore_mem

theorem State.Inv.writeReg {s : State} (h : s.Inv) (reg : Nat) (v : Word64) : (s.writeReg reg v).Inv := by
  unfold State.writeReg
  split <;> exact ⟨h.build, h.reader, h.emitted, h.status, h.memories⟩

theorem State.Inv.writeBytes {s : State} (h : s.Inv) {sp : Space} {a : Nat} {bs : List Byte}
    (hr : s.inRange sp a bs.length = true) : (s.writeBytes sp a bs).Inv where
  build := by rw [State.writeBytes_build]; exact h.build
  reader := by rw [State.readerOk, State.writeBytes_regs, State.writeBytes_build]; exact h.reader
  emitted := by rw [State.emittedOk, State.writeBytes_regs]; exact h.emitted
  status := by rw [State.statusOk, State.writeBytes_regs]; exact h.status
  memories := State.writeBytes_memoriesOk h.memories hr

/-- The invariant asks nothing of the agents around the core. -/
theorem AgentsOnly.inv {s t : State} (ht : AgentsOnly s t) (h : s.Inv) : t.Inv := by
  rw [ht.same]
  exact ⟨h.build, h.reader, h.emitted, h.status, h.memories⟩

theorem State.Inv.popped {s : State} (h : s.Inv) (rest : List HostAction) : (s.popped rest).Inv :=
  ⟨h.build, h.reader, h.emitted, h.status, h.memories⟩

/-- A command ends with `ERR` 0 or 1 (R35). -/
theorem State.Inv.setOutcome {s : State} (h : s.Inv) (v : Nat) {e : BitVec 8} (he : e = 0 ∨ e = 1) :
    (s.setOutcome v e).Inv := ⟨h.build, h.reader, h.emitted, he, h.memories⟩

/-- `RD_EMITTED` grows by multiples of 8 until it is clamped to `FMT_TOTAL` (R32, R136). -/
theorem State.report_emittedOk {s : State} (h : s.emittedOk) (ret : Nat) : (s.report ret).emittedOk := by
  have hemitted := s.report_emitted ret
  have htotal : (s.report ret).regs.fmtTotal = s.regs.fmtTotal := rfl
  rw [State.emittedOk, htotal]
  refine ⟨by omega, ?_⟩
  by_cases hclamp : s.regs.fmtTotal.toNat ≤ s.regs.rdEmitted.toNat + ret * 8
  · exact .inr (BitVec.eq_of_toNat_eq (by omega))
  · obtain ⟨-, hmod | heq⟩ := h
    · exact .inl (by omega)
    · rw [heq] at hclamp
      omega

theorem State.Inv.report {s : State} (h : s.Inv) (ret : Nat) : (s.report ret).Inv :=
  ⟨h.build, h.reader, State.report_emittedOk h.emitted ret, .inl rfl, h.memories⟩

/-- Of what the loop of `READ` changes, the reader's registers and the memories alone matter to the invariant. -/
theorem ReadKeeps.inv {lo hi : Nat} {s t : State} (ht : ReadKeeps lo hi s t) (h : s.Inv) (hr : t.readerOk)
    (hm : t.memoriesOk) : t.Inv where
  build := by rw [ht.build]; exact h.build
  reader := hr
  emitted := by rw [State.emittedOk, ht.emitted, ht.total]; exact h.emitted
  status := by rw [State.statusOk, ht.regs]; exact h.status
  memories := hm

/-- `INIT` leaves an empty reader of a block that fits `BUF` (R131, R72). -/
theorem exec_init_inv {s t : State} (h : s.Inv) (ht : exec .init s = .next t) : t.Inv := by
  obtain ⟨-, hblksz, rfl⟩ := exec_init_next ht
  exact ⟨h.build, ⟨Nat.le_refl _, Nat.zero_le _, hblksz⟩, ⟨Nat.zero_le _, .inl rfl⟩, .inl rfl, h.memories⟩

/-- `READ` keeps the invariant: its loop does, and so does its report. -/
theorem exec_read_inv {s t : State} {n : Nat} (h : s.Inv) (ht : exec (.read n) s = .next t) : t.Inv := by
  obtain ⟨-, hcap, hend⟩ := exec_read_next ht
  have hok := readLoop_ok (ret := 0) h.reader h.memories (by omega) (.inl (Nat.le_refl (s.readFuel n)))
  have hkeeps := readLoop_keeps (s.readFuel n) n 0 s
  obtain ⟨u, hloop, rfl⟩ | ⟨u, hloop, rfl⟩ := hend
  · simp only [hloop] at hok hkeeps
    exact (hkeeps.2.inv h hok.1 hok.2).report n
  · simp only [hloop] at hok hkeeps
    exact (hkeeps.inv h hok.1 hok.2).setOutcome 0 (.inl rfl)

/-- The output of `ENCD n` fits `OUT` (R72). -/
theorem State.Inv.afterEncd {s : State} (h : s.Inv) {n : Nat} (hn : n ≤ s.build.chCap) : (s.afterEncd n).Inv := by
  have hr : s.inRange .out 0 (s.directFrames n ++ s.freeBytes (directTail n)).length = true := by
    rw [State.inRange_iff, List.length_append, State.directFrames_length, State.freeBytes_length]
    right
    simp only [directTail, Build.size, Build.outCap]
    omega
  have hw := h.writeBytes hr
  exact ⟨hw.build, hw.reader, hw.emitted, .inl rfl, hw.memories⟩

/-- The output of `ENCP n` fits `OUT` (R72). -/
theorem State.Inv.afterEncp {s : State} (h : s.Inv) {n : Nat} (hn : n ≤ s.build.chCap) : (s.afterEncp n).Inv := by
  have hr : s.inRange .out 0 (s.dopFrames n).length = true := by
    rw [State.inRange_iff, State.dopFrames_length]
    right
    simp only [Build.size, Build.outCap]
    omega
  exact (h.writeBytes hr).setOutcome _ (.inl rfl)

/-- Every command keeps the invariant. -/
theorem exec_inv {i : Instr} {s t : State} (h : s.Inv) (ht : exec i s = .next t) : t.Inv := by
  cases i with
  | init => exact exec_init_inv h ht
  | read n => exact exec_read_inv h ht
  | encd n =>
    obtain ⟨hn, rfl⟩ := exec_encd_next ht
    exact h.afterEncd hn
  | encp n =>
    obtain ⟨hn, ⟨-, rfl⟩ | ⟨-, rfl⟩⟩ := exec_encp_next ht
    · exact h.setOutcome 0 (.inr rfl)
    · exact h.afterEncp hn
  | rev b | norm b =>
    obtain rfl := Host.Outcome.next.inj ht
    exact h.setOutcome _ (.inl rfl)

/-- Every host action keeps the invariant. -/
theorem hostAct_inv {a : HostAction} {s t : State} (h : s.Inv) (ht : hostAct a s = .next t) : t.Inv := by
  obtain ⟨w, i, -, -, hexec⟩ | ⟨reg, v, -, -, -, rfl⟩ | ⟨sp, addr, bytes, -, hr, rfl⟩ | ⟨-, rfl⟩ | hagents :=
    hostAct_next ht
  · exact exec_inv h hexec
  · exact h.writeReg reg v
  · exact h.writeBytes hr
  · exact h.resetCore
  · exact hagents.inv h

/-- Settles O47: a step is nothing or one host action, and every host action keeps the invariant. -/
theorem stepKeepsTheInvariant : Obligations.StepKeepsTheInvariant := by
  intro s t h ht
  obtain ⟨-, rfl⟩ | ⟨a, rest, -, hact⟩ := step_next ht
  · exact h
  · exact hostAct_inv (h.popped rest) hact

/-- Settles O48: reset is a state of reset registers and empty memories. -/
theorem resetMeetsTheInvariant : Obligations.ResetMeetsTheInvariant := by
  refine State.inv_of_reset (by decide) rfl fun sp => ?_
  match sp with
  | .buf | .ch 0 | .ch 1 | .out => rfl

/-- Settles O29: only `INIT` and `READ` write `RD_EMITTED`, and a `READ` adds to it up to `FMT_TOTAL` (`exec_read_emitted`);
the two forms it can have are the invariant's. -/
theorem emittedNeverDecreases : Obligations.EmittedNeverDecreases := by
  intro i s t h ht
  refine ⟨?_, fun hinit => ?_⟩
  · rintro rfl
    obtain ⟨-, -, rfl⟩ := exec_init_next ht
    rfl
  have hform := (exec_inv h ht).emitted.2
  rw [(exec_format hinit ht).total] at hform
  cases i with
  | init => exact absurd rfl hinit
  | read n =>
    obtain ⟨-, -, -, hcap⟩ := h.build
    have hle := h.emitted.1
    obtain ⟨-, hsame⟩ | ⟨hresult, hemitted⟩ := exec_read_emitted (by omega) ht
    · rw [hsame] at hform ⊢
      exact ⟨Nat.le_refl _, fun _ _ _ => rfl, hform, id⟩
    · refine ⟨by omega, fun m _ hzero => BitVec.eq_of_toNat_eq ?_, hform, fun hfull => BitVec.eq_of_toNat_eq ?_⟩
      · rw [hzero, show (0 : Word32).toNat = 0 from rfl] at hresult
        omega
      · rw [hfull] at hemitted
        omega
  | encd n | encp n | rev b | norm b =>
    have hsame : t.regs.rdEmitted = s.regs.rdEmitted := by rw [exec_changes_out_only hinit rfl ht]
    rw [hsame] at hform ⊢
    exact ⟨Nat.le_refl _, fun _ _ _ => rfl, hform, id⟩

end Sys2Proof.Machine
end

section
/-! SUPPORT. Who touches `BUF`, the source and the active format: of the commands `READ` and `INIT` alone (10_state.md R24, R37,
R50), of the steps those that issue them, and the reset event (R52, R230). -/

namespace Sys2Proof.Machine

/-- Settles O40: `INIT` changes registers, and `exec_changes_out_only` says what is left to the others. -/
theorem onlyReadTouchesTheBufferAndTheSource : Obligations.OnlyReadTouchesTheBufferAndTheSource := by
  intro i s t hread h
  by_cases hinit : i = .init
  · subst hinit
    obtain ⟨-, -, rfl⟩ := exec_init_next h
    exact ⟨rfl, rfl⟩
  · constructor <;> rw [exec_changes_out_only hinit hread h]

/-- The host issues `INIT` by its word or by its mnemonic (R90, R96). -/
theorem HostAction.issues_init {a : HostAction} {s : State} {w : Word32} (h : a.issues s w) (hd : decode w = .ok .init) :
    (∃ v : Word64, a = .wr 12 v ∧ v.setWidth 32 = 0x01000000#32) ∨ a = .command .init := by
  obtain ⟨v, rfl, rfl⟩ | ⟨i, rfl, hw, rfl⟩ | ⟨rfl, rfl⟩ := h
  · exact .inl ⟨v, rfl, eq_initWord_of_decode hd⟩
  · rw [decode_encode hw] at hd
    cases hd
    exact .inr rfl
  · have hop := congrArg opField (eq_initWord_of_decode hd)
    simp [encode, Instr.opcode] at hop
    exact absurd hop (by decide)

/-- Taking an action off the script is no change of the format. -/
theorem FormatKeeps.of_popped {s t : State} {rest : List HostAction} (h : FormatKeeps (s.popped rest) t) :
    t.regs.fmtSrate = s.regs.fmtSrate ∧ t.regs.fmtLsbf = s.regs.fmtLsbf ∧ t.regs.fmtTotal = s.regs.fmtTotal ∧
      t.regs.rdBlksz = s.regs.rdBlksz := ⟨h.srate, h.lsbf, h.total, h.blksz⟩

/-- Settles O45: of what one host action can do, only `INIT` and the reset event write the active format. -/
theorem formatChangesOnlyAtInitOrReset : Obligations.FormatChangesOnlyAtInitOrReset := by
  intro s t h
  obtain ⟨-, rfl⟩ | ⟨a, rest, htodo, hact⟩ := step_next h
  · exact .inl ⟨rfl, rfl, rfl, rfl⟩
  obtain ⟨w, i, hw, hd, hexec⟩ | ⟨reg, v, -, -, -, rfl⟩ | ⟨sp, addr, bytes, -, -, rfl⟩ | ⟨rfl, -⟩ | hagents :=
    hostAct_next hact
  · by_cases hi : i = .init
    · subst hi
      obtain ⟨-, -, rfl⟩ := exec_init_next hexec
      refine .inr (.inl ⟨?_, rfl, rfl, rfl, rfl⟩)
      obtain ⟨v, rfl, hv⟩ | rfl := HostAction.issues_init hw hd
      · exact .inl ⟨v, rest, htodo, hv⟩
      · exact .inr ⟨rest, htodo⟩
    · exact .inl (exec_format hi hexec).of_popped
  · exact .inl ((s.popped rest).writeReg_format reg v).of_popped
  · exact .inl ((s.popped rest).writeBytes_format sp.space addr bytes).of_popped
  · exact .inr (.inr ⟨rest, htodo⟩)
  · exact .inl hagents.format.of_popped

/-! `BUF` by itself: the state with another `BUF` goes through every action but a `READ` and the reset event as the state
does, so the action neither reads `BUF` nor writes it. -/

@[simp] theorem mapNext_next (f : State → State) (t : State) : mapNext f (.next t) = .next (f t) := rfl

/-- The same state with `m` in `BUF`. -/
def State.withBuf (m : Memory) (s : State) : State := { s with buf := m }

section Buffer
variable (m : Memory) (s : State)

/-- What the host reads of a memory it can reach is not in `BUF` (R38, R71). -/
theorem State.readBytes_withBuf (sp : HostSpace) (a n : Nat) :
    (s.withBuf m).readBytes sp.space a n = s.readBytes sp.space a n := by
  match sp with
  | .ch 0 | .ch 1 | .out => rfl

theorem State.writeBytes_withBuf (sp : HostSpace) (a : Nat) (bs : List Byte) :
    (s.withBuf m).writeBytes sp.space a bs = (s.writeBytes sp.space a bs).withBuf m := by
  match sp with
  | .ch 0 | .ch 1 | .out => rfl

theorem State.withRange_withBuf (sp : Space) (a n : Nat) (run : StepOutcome) :
    (s.withBuf m).withRange sp a n (mapNext (State.withBuf m) run) = mapNext (State.withBuf m) (s.withRange sp a n run) := by
  unfold State.withRange
  rw [apply_ite (mapNext _)]
  rfl

theorem State.inPhase_withBuf (p : Phase) (run : StepOutcome) :
    (s.withBuf m).inPhase p (mapNext (State.withBuf m) run) = mapNext (State.withBuf m) (s.inPhase p run) := by
  unfold State.inPhase
  rw [apply_ite (mapNext _)]
  rfl

/-- No command but `READ` reads or writes `BUF` (R37). -/
theorem exec_withBuf {i : Instr} (h : i.isRead = false) :
    exec i (s.withBuf m) = mapNext (State.withBuf m) (exec i s) := by
  cases i with
  | init =>
    simp only [exec_init_guards, State.withSource, State.withBlock, State.withDuty, apply_ite (mapNext _)]
    rfl
  | read n => simp [Instr.isRead] at h
  | encd n =>
    simp only [exec, execEncd, State.withCount, apply_ite (mapNext _)]
    rfl
  | encp n =>
    simp only [exec, execEncp, State.withCount, apply_ite (mapNext _)]
    rfl
  | rev b => rfl
  | norm b => rfl

theorem State.issueWord_withBuf {w : Word32} (h : (decode w).toOption.any Instr.isRead = false) :
    (s.withBuf m).issueWord w = mapNext (State.withBuf m) (s.issueWord w) := by
  unfold State.issueWord
  cases hd : decode w with
  | ok i => exact exec_withBuf m s (by simpa [hd, Except.toOption] using h)
  | error e => rfl

theorem State.issueCommand_withBuf {i : Instr} (h : i.isRead = false) :
    (s.withBuf m).issueCommand i = mapNext (State.withBuf m) (s.issueCommand i) := by
  unfold State.issueCommand
  split
  · rename_i hw
    exact State.issueWord_withBuf m s (by simp [decode_encode hw, Except.toOption, h])
  · rfl

theorem State.writeReg_withBuf (reg : Nat) (v : Word64) : (s.withBuf m).writeReg reg v = (s.writeReg reg v).withBuf m := by
  unfold State.writeReg
  split <;> rfl

theorem State.hostRead_withBuf (reg : Nat) :
    (s.withBuf m).hostRead reg = mapNext (State.withBuf m) (s.hostRead reg) := by
  have hreg : (s.withBuf m).readReg reg = s.readReg reg := rfl
  unfold State.hostRead
  rw [hreg]
  cases s.readReg reg <;> rfl

theorem State.handOver_withBuf (count : Nat) :
    (s.withBuf m).handOver count = mapNext (State.withBuf m) (s.handOver count) := by
  unfold State.handOver
  rw [← State.withRange_withBuf]
  rfl

theorem State.jump_withBuf (l : Nat) : (s.withBuf m).jump l = mapNext (State.withBuf m) (s.jump l) := by
  have hscript : (s.withBuf m).agent = s.agent := rfl
  unfold State.jump
  rw [hscript]
  cases afterLabel l s.agent.script <;> rfl

theorem State.finish_withBuf (o : RunOutcome) : (s.withBuf m).finish o = (s.finish o).withBuf m := by
  have hagent : (s.withBuf m).agent = s.agent := rfl
  unfold State.finish
  rw [hagent]
  cases s.agent.phase <;> rfl

theorem State.openContainer_withBuf :
    (s.withBuf m).openContainer = mapNext (State.withBuf m) s.openContainer := by
  have hsame : (s.withBuf m).agent = s.agent ∧ (s.withBuf m).src = s.src := ⟨rfl, rfl⟩
  unfold State.openContainer
  rw [← State.inPhase_withBuf, hsame.1, hsame.2]
  cases parseContainer s.agent.profile s.src s.src.cursor with
  | ok p => rfl
  | error e =>
    dsimp only
    rw [mapNext_next, ← State.finish_withBuf]
    rfl

theorem State.negotiate_withBuf : (s.withBuf m).negotiate = mapNext (State.withBuf m) s.negotiate := by
  unfold State.negotiate
  rw [← State.inPhase_withBuf, apply_ite (mapNext _), mapNext_next, mapNext_next, ← State.finish_withBuf]
  rfl

theorem State.writeFrames_withBuf : (s.withBuf m).writeFrames = mapNext (State.withBuf m) s.writeFrames := by
  have hsame : (s.withBuf m).sink = s.sink ∧ (s.withBuf m).agent = s.agent := ⟨rfl, rfl⟩
  unfold State.writeFrames
  rw [← State.inPhase_withBuf, ← State.withRange_withBuf, hsame.1, hsame.2]
  dsimp only
  cases s.sink.accepts (s.agent.r / 4) with
  | none =>
    dsimp only
    rw [mapNext_next, ← State.finish_withBuf]
    rfl
  | some k =>
    dsimp only
    rw [apply_ite (mapNext _), mapNext_next, mapNext_next, ← State.finish_withBuf]
    rfl

/-- No host action but one that issues a `READ`, and the reset event, reads or writes `BUF` (R52). -/
theorem hostAct_withBuf {a : HostAction} (hread : a.isRead = false) (hreset : a ≠ .resetCore) :
    hostAct a (s.withBuf m) = mapNext (State.withBuf m) (hostAct a s) := by
  cases a with
  | wr reg v =>
    simp only [hostAct, State.hostWrite]
    split
    · rfl
    · split
      · rename_i hreg
        exact State.issueWord_withBuf m s (by simpa [HostAction.isRead, hreg] using hread)
      · rw [State.writeReg_withBuf]
        rfl
  | rd reg => exact State.hostRead_withBuf m s reg
  | command i => exact State.issueCommand_withBuf m s hread
  | encdR => exact State.issueCommand_withBuf m s rfl
  | ld sp addr bytes =>
    simp only [hostAct]
    rw [← State.withRange_withBuf, State.writeBytes_withBuf]
    rfl
  | st sp addr count =>
    simp only [hostAct]
    rw [← State.withRange_withBuf, State.readBytes_withBuf]
    rfl
  | sink count => exact State.handOver_withBuf m s count
  | sinkR => exact State.handOver_withBuf m s _
  | goto l => exact State.jump_withBuf m s l
  | gotoIfResultZero l | gotoIfRZero l =>
    simp only [hostAct]
    rw [apply_ite (mapNext _), ← State.jump_withBuf]
    rfl
  | openContainer => exact State.openContainer_withBuf m s
  | configured =>
    simp only [hostAct]
    rw [← State.inPhase_withBuf]
    rfl
  | negotiate => exact State.negotiate_withBuf m s
  | writeFramesR => exact State.writeFrames_withBuf m s
  | checkErr =>
    simp only [hostAct]
    rw [apply_ite (mapNext _), State.finish_withBuf]
    rfl
  | terminate o => exact congrArg _ (State.finish_withBuf m s o)
  | resetCore => exact absurd rfl hreset
  | rdResultToR | label | attach => rfl

end Buffer

/-- Settles O41: the step is its action's, and `hostAct_withBuf` says the action does not see `BUF`. -/
theorem theReaderAloneAccessesTheBuffer : Obligations.TheReaderAloneAccessesTheBuffer := by
  intro s m a rest htodo hread hreset
  have hstep : step (s.withBuf m) = hostAct a ((s.popped rest).withBuf m) := step_cons (s := s.withBuf m) htodo
  refine hstep.trans ?_
  rw [hostAct_withBuf m _ hread hreset, ← step_cons htodo]
  cases step s <;> rfl

end Sys2Proof.Machine
end

section
/-! SUPPORT. `RESULT` and `STATUS.ERR` are written by every command and read by none (10_state.md R34, R35): the loop of `READ`
carries them along unread, and every command ends by writing both. -/

namespace Sys2Proof.Machine

/-- Of two outcomes written one after the other the last stays. -/
@[simp] theorem State.setOutcome_setOutcome (s : State) (v v' : Nat) (e e' : BitVec 8) :
    (s.setOutcome v e).setOutcome v' e' = s.setOutcome v' e' := rfl

section Outcome
variable (v : Nat) (e : BitVec 8) (s : State)

theorem State.refill_setOutcome :
    (s.setOutcome v e).refill = s.refill.mapState fun t => t.setOutcome v e := by
  have hblksz : (s.setOutcome v e).regs.rdBlksz = s.regs.rdBlksz := rfl
  rw [State.refill, State.refill, State.setOutcome_src, hblksz]
  cases s.src.read (2 * s.regs.rdBlksz.toNat) with
  | none => rfl
  | some answer =>
    dsimp only
    rw [apply_ite (Refill.mapState _), apply_ite (Refill.mapState _)]
    rfl

theorem State.refillIfExhausted_setOutcome :
    (s.setOutcome v e).refillIfExhausted = s.refillIfExhausted.mapState fun t => t.setOutcome v e := by
  unfold State.refillIfExhausted
  rw [State.refill_setOutcome, apply_ite (Refill.mapState _)]
  rfl

/-- The loop of `READ` neither reads nor writes the outcome registers (R132). -/
theorem readLoop_setOutcome (fuel rem ret : Nat) :
    readLoop fuel rem ret (s.setOutcome v e) = (readLoop fuel rem ret s).mapState fun t => t.setOutcome v e := by
  induction fuel generalizing rem ret s with
  | zero => cases rem <;> rfl
  | succ fuel ih =>
    cases rem with
    | zero => rfl
    | succ rem =>
      rw [readLoop_step, readLoop_step, State.refillIfExhausted_setOutcome]
      cases s.refillIfExhausted with
      | stuck f => rfl
      | empty t => rfl
      | data t =>
        dsimp only [Refill.mapState]
        rw [apply_ite (ReadEnd.mapState _), ← ih]
        rfl

/-- However its loop ends, `READ` ends by writing both registers. -/
theorem ReadEnd.outcome_mapState_setOutcome (r : ReadEnd) :
    (r.mapState fun t => t.setOutcome v e).outcome = r.outcome := by cases r <;> rfl

/-- A command answers the same whatever the outcome registers hold. -/
theorem exec_setOutcome (i : Instr) : exec i (s.setOutcome v e) = exec i s := by
  cases i with
  | read n =>
    rw [exec_read_guards n s, ← ReadEnd.outcome_mapState_setOutcome v e, ← readLoop_setOutcome]
    exact exec_read_guards n (s.setOutcome v e)
  | init | encd | encp | rev | norm => rfl

end Outcome

/-- Settles O38: `exec_setOutcome`, for the outcome the two registers hold. -/
theorem noCommandReadsTheOutcomeRegisters : Obligations.NoCommandReadsTheOutcomeRegisters := by
  intro i s v e
  have hset : s.setOutcome v.toNat e = { s with regs := { s.regs with result := v, statusErr := e } } := by
    simp [State.setOutcome]
  rw [← hset, exec_setOutcome]

end Sys2Proof.Machine
end

section
/-! SUPPORT. What the host sees of the core: the registers by number (10_state.md R30, R40), and the bytes of `CH` and `OUT` that
it loads and reads back (R38, 20_memory.md R62). -/

namespace Sys2Proof.Machine

/-- Registers at their reset values read as R30's reset column says. -/
theorem State.readReg_of_reset {s : State} (h : s.regs = Regs.reset) {reg : Nat} (hreg : reg < 15) :
    s.readReg reg = some (if reg = 0 then 2 else 0) := by
  interval_cases reg <;> simp [State.readReg, h, Regs.reset, flagWord]

/-- Settles O49: `readReg_of_reset`, for the reset state and for any state after the reset event. -/
theorem resetGivesEveryRegisterItsValue : Obligations.ResetGivesEveryRegisterItsValue :=
  ⟨fun _ => State.readReg_of_reset rfl, fun s => ⟨fun _ => State.readReg_of_reset rfl, s.resetCore_mem, rfl⟩⟩

/-- Numbers 15 and above are no registers (R30, R215). -/
theorem State.hostWrite_reserved (s : State) {reg : Nat} (h : 15 ≤ reg) (v : Word64) :
    s.hostWrite reg v = .refused (.reservedRegister reg) := if_pos h

/-- A host write of another register than `CMD` is `writeReg`'s (R30). -/
theorem State.hostWrite_eq (s : State) {reg : Nat} (h : reg < 15) (hcmd : reg ≠ cmdReg) (v : Word64) :
    s.hostWrite reg v = .next (s.writeReg reg v) := by
  rw [State.hostWrite, if_neg (by omega), if_neg hcmd]

/-- Only the four staging registers take a value (R30). -/
theorem State.writeReg_readOnly (s : State) {reg : Nat} (h : reg = 0 ∨ 5 ≤ reg) (v : Word64) : s.writeReg reg v = s := by
  unfold State.writeReg
  split
  case h_5 => rfl
  all_goals omega

/-- Settles O50: the step is the host write, and each clause is what `writeReg` does with the number. -/
theorem hostWritesReachOnlyTheStagingRegisters : Obligations.HostWritesReachOnlyTheStagingRegisters := by
  intro s reg v rest htodo
  have hstep : step s = (s.popped rest).hostWrite reg v := step_cons htodo
  rw [hstep]
  refine ⟨?_, ?_, ?_, ?_, fun h => ?_, fun h => State.hostWrite_reserved _ h v⟩
  · rintro rfl
    rfl
  · rintro rfl
    rfl
  · rintro rfl
    rfl
  · rintro rfl
    rfl
  · rw [State.hostWrite_eq _ (by omega) (by rw [cmdReg]; omega), State.writeReg_readOnly _ (by omega)]
    rfl

theorem State.hostRead_reserved (s : State) {reg : Nat} (h : 15 ≤ reg) :
    s.hostRead reg = .refused (.reservedRegister reg) := by
  have hnone : s.readReg reg = none := by
    unfold State.readReg
    split
    case h_16 => rfl
    all_goals omega
  rw [State.hostRead, hnone]

/-- The value read of a register is shown, and nothing else changes (R96). -/
theorem State.hostRead_eq {s : State} {reg : Nat} {v : Word64} (h : s.readReg reg = some v) :
    s.hostRead reg = .next { s with agent := { s.agent with shown := v } } := by
  rw [State.hostRead, h]

/-- A flag is read as bit 0 of a word (R26). -/
theorem flagWord_eq (b : Bool) : flagWord b = BitVec.ofNat 64 b.toNat := by cases b <;> rfl

/-- Settles O51: the step is the host read, and each clause is what `readReg` gives for the number. -/
theorem hostReadsEveryRegister : Obligations.HostReadsEveryRegister := by
  intro s a rest htodo
  have hstep := step_cons htodo
  refine ⟨?_, ?_, ?_⟩
  · rintro reg rfl hreg
    exact hstep.trans (State.hostRead_reserved _ hreg)
  · rintro rfl
    exact hstep
  · rintro reg rfl hreg
    refine hstep.trans ((State.hostRead_eq ?_).trans rfl)
    interval_cases reg <;> simp [State.readReg, State.popped, flagWord_eq]

/-- Bytes written to a memory are read back (R62, R74). -/
theorem State.readBytes_writeBytes (s : State) (sp : Space) (a : Nat) (bs : List Byte) :
    (s.writeBytes sp a bs).readBytes sp a bs.length = bs := by
  refine List.ext_getElem (by simp) fun k _ hk => ?_
  simp [State.readBytes, State.readByte_writeBytes, hk]

/-- Settles O52: the bytes read back are those written, and a write shows at its own bytes only. -/
theorem hostLoadsAreReadBack : Obligations.HostLoadsAreReadBack := by
  intro s sp addr bytes hfit
  have hr : s.inRange sp.space addr bytes.length = true := (s.inRange_iff ..).2 (.inr hfit)
  have hr' : (s.writeBytes sp.space addr bytes).inRange sp.space addr bytes.length = true := by
    rw [State.inRange_iff, State.writeBytes_build]
    exact .inr hfit
  refine ⟨s.writeBytes sp.space addr bytes, State.withRange_eq hr _, ?_, fun sq a houtside => ?_⟩
  · rw [hostAct, State.withRange_eq hr', State.readBytes_writeBytes]
  · by_cases hsq : sq = sp.space
    · subst hsq
      have hbytes := houtside.resolve_left (not_not.2 rfl)
      rw [State.readByte_writeBytes, if_neg (by omega)]
    · exact State.readByte_writeBytes_ne s addr bytes a hsq

end Sys2Proof.Machine
end

section
/-! SUPPORT. The closed list of refusals (20_memory.md R72; 47_host_sequence.md R175, R191; 60_exceptions.md R215): when each host
duty refuses the command under it, and from that when each command is refused. -/

namespace Sys2Proof.Machine

section Duties
variable (s : State) (run : StepOutcome) (r : Refusal)

theorem State.withSource_refused_iff :
    s.withSource run = .refused r ↔
      s.src.discarded = true ∧ r = .sourceDiscarded ∨ s.src.discarded = false ∧ run = .refused r := by
  unfold State.withSource
  cases s.src.discarded <;> simp [eq_comm]

theorem State.withCount_refused_iff (n : Nat) :
    s.withCount n run = .refused r ↔
      s.build.chCap < n ∧ r = .countExceedsChCap n ∨ n ≤ s.build.chCap ∧ run = .refused r := by
  unfold State.withCount
  split <;> simp [*, eq_comm, Nat.not_le.symm]

theorem State.withBlock_refused_iff :
    s.withBlock run = .refused r ↔
      s.build.blkszMax < s.regs.cfgBlksz.toNat ∧ r = .blockExceedsBuf s.regs.cfgBlksz.toNat ∨
        s.regs.cfgBlksz.toNat ≤ s.build.blkszMax ∧ run = .refused r := by
  unfold State.withBlock
  split <;> simp [*, eq_comm, Nat.not_le.symm]

/-- A command that is itself never refused is refused under a duty of R191 just where R191 is followed and the duty broken. -/
theorem State.withDuty_refused_iff {run : StepOutcome} {r : Refusal} (hrun : run ≠ .refused r) (kept : Bool)
    (r' : Refusal) : s.withDuty kept r' run = .refused r ↔ s.build.strictDuties = true ∧ kept = false ∧ r = r' := by
  unfold State.withDuty
  cases s.build.strictDuties <;> cases kept <;> simp [hrun, eq_comm]

end Duties

/-- The loop of `READ` is never refused: it serves, meets the end of the stream, or faults (R200). -/
theorem ReadEnd.outcome_ne_refused (e : ReadEnd) (r : Refusal) : e.outcome ≠ .refused r := by
  cases e <;> simp [ReadEnd.outcome]

section Commands
variable (s : State) (r : Refusal)

theorem exec_init_refused_iff :
    exec .init s = .refused r ↔
      s.src.discarded = true ∧ r = .sourceDiscarded ∨
      s.src.discarded = false ∧
        (s.build.blkszMax < s.regs.cfgBlksz.toNat ∧ r = .blockExceedsBuf s.regs.cfgBlksz.toNat ∨
          s.regs.cfgBlksz.toNat ≤ s.build.blkszMax ∧
            s.build.strictDuties = true ∧ s.src.fit = false ∧ r = .sourceUnfit) := by
  rw [exec_init_guards, State.withSource_refused_iff, State.withBlock_refused_iff,
    State.withDuty_refused_iff _ (by simp)]

theorem exec_read_refused_iff (n : Nat) :
    exec (.read n) s = .refused r ↔
      s.src.discarded = true ∧ r = .sourceDiscarded ∨
      s.src.discarded = false ∧
        (s.build.chCap < n ∧ r = .countExceedsChCap n ∨
          n ≤ s.build.chCap ∧ s.build.strictDuties = true ∧ s.sourceKept n = false ∧ r = .sourceTouched) := by
  rw [exec_read_guards, State.withSource_refused_iff, State.withCount_refused_iff,
    State.withDuty_refused_iff _ (ReadEnd.outcome_ne_refused _ _)]

theorem exec_encd_refused_iff (n : Nat) :
    exec (.encd n) s = .refused r ↔ s.build.chCap < n ∧ r = .countExceedsChCap n := by
  refine (s.withCount_refused_iff _ r n).trans ?_
  simp

theorem exec_encp_refused_iff (n : Nat) :
    exec (.encp n) s = .refused r ↔ s.build.chCap < n ∧ r = .countExceedsChCap n := by
  refine (s.withCount_refused_iff _ r n).trans ?_
  split <;> simp

end Commands

/-- Settles O39: command by command, each refusal is that of the first of its broken duties, by its `exec_…_refused_iff`. -/
theorem commandsRefuseTheClosedListOnly : Obligations.CommandsRefuseTheClosedListOnly := by
  intro i s r
  cases i with
  | init =>
    rw [exec_init_refused_iff]
    simp only [reduceCtorEq, exists_const, or_false, true_and, false_and, or_self, and_false, false_or]
    tauto
  | read n =>
    have hkept : s.sourceKept n = false ↔ s.use = .touched ∧ s.asksSource n = true := by simp [State.sourceKept]
    rw [exec_read_refused_iff, hkept]
    simp only [reduceCtorEq, Instr.read.injEq, exists_eq', or_true, true_and, false_and, or_self, or_false,
      ↓existsAndEq, and_false, exists_and_left, false_or]
    tauto
  | encd n => simp [exec_encd_refused_iff]
  | encp n => simp [exec_encp_refused_iff]
  | rev b => simp [exec_rev_eq]
  | norm b => simp [exec_norm_eq]

end Sys2Proof.Machine
end

section
/-! SUPPORT. `READ` from the reference source, block group by block group (20_memory.md R66, R67, R79; 41_block_reader.md R133,
R134, R143): one iteration of the loop takes one group of `2 * RD_BLKSZ` bytes from the source and serves `min(rem, RD_BLKSZ)`
bytes of each channel from it; the loop over all the groups follows by induction on the bound of its iterations. -/

namespace Sys2Proof.Machine

/-- The answer of the reference source (R67), `SrcRead(0)` included (R66). -/
theorem Source.read_of_isReference {src : Source} (h : src.isReference) (k : Nat) :
    src.read k = some (src.bytesAt src.cursor k,
      { src with cursor := src.cursor + (src.bytesAt src.cursor k).length }) := by
  obtain ⟨hanswers, hlimit, hmore⟩ := h
  by_cases hk : k = 0
  · simp [Source.read, hk, Source.bytesAt_of_ends hmore]
  · exact Source.read_reference hanswers hlimit k hk

/-- Settles O18: the bytes are the laid-down ones from the cursor on, by `Source.read_of_isReference`. -/
theorem referenceSourceYieldsTheNextBytes : Obligations.ReferenceSourceYieldsTheNextBytes := by
  intro src k href
  refine ⟨_, Source.read_of_isReference href k, ?_⟩
  rw [Source.bytesAt_of_ends href.2.2]
  refine ⟨by simp, fun j hj => ?_⟩
  rw [List.getElem?_take_of_lt (by simp at hj; omega), List.getElem?_drop]

/-- Where byte `a` of channel `c` stands in a stream of block groups of `b` bytes per channel, counted from the start of the
first group: in group `a / b`, at offset `a % b` of the channel's block (R79). -/
def groupOffset (b : Nat) (c : Fin 2) (a : Nat) : Nat := 2 * b * (a / b) + c.val * b + a % b

/-- In the first group the offset is that of the channel's region of `BUF` (R70). -/
theorem groupOffset_of_lt {b a : Nat} (c : Fin 2) (h : a < b) : groupOffset b c a = c.val * b + a := by
  simp [groupOffset, Nat.div_eq_of_lt h, Nat.mod_eq_of_lt h]

/-- The byte a block further on stands a group further on. -/
theorem groupOffset_add_block {b : Nat} (c : Fin 2) (a : Nat) (h : 0 < b) :
    groupOffset b c (b + a) = 2 * b + groupOffset b c a := by
  simp only [groupOffset, Nat.add_div_left a h, Nat.add_mod_left]
  ring

/-- How many groups of `b` bytes per channel cover `n` bytes per channel. -/
def groupsFor (b n : Nat) : Nat := (n + b - 1) / b

theorem groupsFor_zero {b : Nat} (h : 0 < b) : groupsFor b 0 = 0 := Nat.div_eq_of_lt (by omega)

/-- The first group covers `min(n, b)` bytes, the others the rest. -/
theorem groupsFor_of_pos {b n : Nat} (hb : 0 < b) (hn : 0 < n) : groupsFor b n = groupsFor b (n - min n b) + 1 := by
  rw [groupsFor, groupsFor]
  rcases Nat.le_total n b with h | h
  · rw [Nat.div_eq_of_lt_le (k := 1) (by omega) (by omega), Nat.div_eq_of_lt (by omega)]
  · rw [← Nat.add_div_right _ hb]
    congr 1
    omega

/-- The state after one block group (R133, R134): its bytes in `BUF`, the source past them, and `m` bytes of each channel
copied to `CH[c][ret ..]`. -/
def State.afterGroup (s : State) (ret m : Nat) : State :=
  (s.refilled (s.src.bytesAt s.src.cursor (2 * s.regs.rdBlksz.toNat))
    { s.src with cursor := s.src.cursor + 2 * s.regs.rdBlksz.toNat }).copyOut ret m

theorem State.afterGroup_pos (s : State) (ret m : Nat) : (s.afterGroup ret m).regs.rdPos = BitVec.ofNat 32 m := by
  simp [State.afterGroup]

/-- What the reader needs to serve block groups: its invariant, a block size, and a source that gives all it is asked for and
has `groups` of them laid down from its cursor on (R67, R79). -/
structure State.HasGroups (s : State) (groups : Nat) : Prop where
  reader  : s.readerOk
  block   : 0 < s.regs.rdBlksz.toNat
  answers : s.src.answers = []
  limit   : s.src.thereafter = none
  laid    : s.src.cursor + 2 * s.regs.rdBlksz.toNat * groups ≤ s.src.stream.length

section Group
variable {s : State} {groups : Nat} (h : s.HasGroups (groups + 1))
include h

theorem State.HasGroups.first_laid : s.src.cursor + 2 * s.regs.rdBlksz.toNat ≤ s.src.stream.length := by
  have := h.laid
  rw [Nat.mul_succ] at this
  omega

/-- The source's answer to a refill is the whole group. -/
theorem State.HasGroups.group_length :
    (s.src.bytesAt s.src.cursor (2 * s.regs.rdBlksz.toNat)).length = 2 * s.regs.rdBlksz.toNat := by
  have := h.first_laid
  rw [Source.bytesAt_of_laid this, List.length_take, List.length_drop]
  omega

theorem State.HasGroups.read_group :
    s.src.read (2 * s.regs.rdBlksz.toNat) = some (s.src.bytesAt s.src.cursor (2 * s.regs.rdBlksz.toNat),
      { s.src with cursor := s.src.cursor + 2 * s.regs.rdBlksz.toNat }) := by
  have := h.block
  rw [Source.read_reference h.answers h.limit _ (by omega), Source.yield, h.group_length]

/-- A byte of the group, where the stream has it. -/
theorem State.HasGroups.group_getD {k : Nat} (hk : k < 2 * s.regs.rdBlksz.toNat) :
    s.src.stream[s.src.cursor + k]? =
      some ((s.src.bytesAt s.src.cursor (2 * s.regs.rdBlksz.toNat)).getD k 0) := by
  have hlaid := h.first_laid
  have hin : s.src.cursor + k < s.src.stream.length := by omega
  simp [Source.bytesAt_of_laid hlaid, List.getD, List.getElem?_take_of_lt hk, hin]

/-- One iteration of the loop takes one group (R132). -/
theorem State.HasGroups.readLoop_group (hp : s.regs.rdPos = s.regs.rdFilled) (fuel rem ret : Nat) :
    readLoop (fuel + 1) (rem + 1) ret s =
      readLoop fuel (rem + 1 - min (rem + 1) s.regs.rdBlksz.toNat) (ret + min (rem + 1) s.regs.rdBlksz.toNat)
        (s.afterGroup ret (min (rem + 1) s.regs.rdBlksz.toNat)) := by
  have hlen := h.group_length
  have hblock := h.block
  have hne : s.src.bytesAt s.src.cursor (2 * s.regs.rdBlksz.toNat) ≠ [] := List.ne_nil_of_length_pos (by omega)
  rw [readLoop_refill h.reader hp h.read_group hne, hlen, Nat.mul_div_cancel_left _ Nat.two_pos]
  rfl

/-- The bytes copied are the stream's, de-interleaved (R79, R134). -/
theorem State.HasGroups.afterGroup_readByte {m a : Nat} (ret : Nat) (c : Fin 2) (hm : m ≤ s.regs.rdBlksz.toNat)
    (ha : a < m) :
    s.src.stream[s.src.cursor + groupOffset s.regs.rdBlksz.toNat c a]? =
      some ((s.afterGroup ret m).readByte (.ch c) (ret + a)) := by
  have hk : c.val * s.regs.rdBlksz.toNat + a < 2 * s.regs.rdBlksz.toNat := by
    rcases channel_cases c with rfl | rfl <;> simp <;> omega
  rw [groupOffset_of_lt c (by omega), h.group_getD hk, State.afterGroup, State.copyOut_readByte, if_pos (by omega),
    State.refilled_readByte, h.group_length]
  simp [State.unread, hk]

/-- A whole group fills a whole block of each channel (R133). -/
theorem State.HasGroups.afterGroup_filled (ret m : Nat) : (s.afterGroup ret m).regs.rdFilled = s.regs.rdBlksz := by
  simp [State.afterGroup, h.group_length]

/-- With this group taken, the reader has the rest of them. -/
theorem State.HasGroups.afterGroup {m : Nat} (ret : Nat) (hm : m ≤ s.regs.rdBlksz.toNat) :
    (s.afterGroup ret m).HasGroups groups where
  reader := by
    have hfilled := h.afterGroup_filled ret m
    have hpos : (s.afterGroup ret m).regs.rdPos.toNat = m := by
      rw [State.afterGroup_pos, Word32.toNat_ofNat_of_lt (by omega)]
    exact ⟨by rw [hpos, hfilled]; exact hm, by rw [hfilled]; exact Nat.le_refl _, h.reader.2.2⟩
  block := h.block
  answers := h.answers
  limit := h.limit
  laid := by
    have := h.laid
    rw [Nat.mul_succ] at this
    show s.src.cursor + 2 * s.regs.rdBlksz.toNat + 2 * s.regs.rdBlksz.toNat * groups ≤ s.src.stream.length
    omega

theorem State.HasGroups.afterGroup_exhausted (ret : Nat) :
    (s.afterGroup ret s.regs.rdBlksz.toNat).regs.rdPos = (s.afterGroup ret s.regs.rdBlksz.toNat).regs.rdFilled := by
  rw [h.afterGroup_filled, State.afterGroup_pos, BitVec.ofNat_toNat, BitVec.setWidth_eq]

end Group

/-- The frame of a served request, from `readLoop_keeps`. -/
theorem readLoop_served_keeps {fuel rem ret k : Nat} {s t : State} (h : readLoop fuel rem ret s = .served k t) :
    ReadKeeps ret (ret + rem) s t := by
  have hkeeps := readLoop_keeps fuel rem ret s
  rw [h] at hkeeps
  exact hkeeps.2

/-- The loop of `READ` over the block groups it needs (R79, R132, R143): the first group serves `min(rem, RD_BLKSZ)` bytes of
each channel, and what is left of the request is the same claim a group further on. -/
theorem readLoop_groups {fuel rem ret : Nat} {s : State} (h : s.HasGroups (groupsFor s.regs.rdBlksz.toNat rem))
    (hp : 0 < rem → s.regs.rdPos = s.regs.rdFilled) (hfuel : rem ≤ fuel) :
    ∃ t, readLoop fuel rem ret s = .served (ret + rem) t ∧
      t.src.cursor = s.src.cursor + 2 * s.regs.rdBlksz.toNat * groupsFor s.regs.rdBlksz.toNat rem ∧
      ∀ (c : Fin 2) (a : Nat), a < rem →
        s.src.stream[s.src.cursor + groupOffset s.regs.rdBlksz.toNat c a]? = some (t.readByte (.ch c) (ret + a)) := by
  induction fuel generalizing rem ret s with
  | zero =>
    obtain rfl : rem = 0 := by omega
    exact ⟨s, readLoop_done .., by simp [groupsFor_zero h.block], by simp⟩
  | succ fuel ih =>
    cases rem with
    | zero => exact ⟨s, readLoop_done .., by simp [groupsFor_zero h.block], by simp⟩
    | succ rem =>
      have hgroups := groupsFor_of_pos h.block rem.succ_pos
      rw [hgroups] at h ⊢
      have hstep := h.readLoop_group (hp rem.succ_pos) fuel rem ret
      have hblock := h.block
      generalize hm : min (rem + 1) s.regs.rdBlksz.toNat = m at h hstep ⊢
      have hexhausted : 0 < rem + 1 - m → (s.afterGroup ret m).regs.rdPos = (s.afterGroup ret m).regs.rdFilled := by
        intro hmore
        obtain rfl : m = s.regs.rdBlksz.toNat := by omega
        exact h.afterGroup_exhausted ret
      obtain ⟨t, hrun, hcursor, hbytes⟩ := ih (ret := ret + m) (h.afterGroup ret (by omega)) hexhausted (by omega)
      refine ⟨t, ?_, ?_, fun c a ha => ?_⟩
      · rw [hstep, hrun]
        congr 1
        omega
      · rw [hcursor, Nat.mul_succ, Nat.add_comm _ (2 * _), ← Nat.add_assoc]
        rfl
      · by_cases hfirst : a < m
        · have hkept := (readLoop_served_keeps hrun).ch c (ret + a) (.inl (by omega))
          rw [hkept]
          exact h.afterGroup_readByte ret c (by omega) hfirst
        · obtain rfl : m = s.regs.rdBlksz.toNat := by omega
          obtain ⟨k, rfl⟩ := Nat.exists_eq_add_of_le (Nat.le_of_not_lt hfirst)
          rw [groupOffset_add_block c k hblock, ← Nat.add_assoc, ← Nat.add_assoc]
          exact hbytes c k (by omega)

/-- Settles O21: the loop by `readLoop_groups`, and after it the truncation of R136. -/
theorem readDeinterleavesTheBlockGroups : Obligations.ReadDeinterleavesTheBlockGroups := by
  intro s n husable hanswers hlimit hcap hn hreader hexhausted hblock b groups hlaid
  have hgroups : s.HasGroups (groupsFor s.regs.rdBlksz.toNat n) := ⟨hreader, hblock, hanswers, hlimit, hlaid⟩
  obtain ⟨t, hrun, hcursor, hbytes⟩ :=
    readLoop_groups (fuel := s.readFuel n) (ret := 0) hgroups (fun _ => hexhausted) (Nat.le_add_right ..)
  have hkeeps := readLoop_served_keeps hrun
  simp only [Nat.zero_add] at hrun hbytes
  refine ⟨t.report n, ?_, ?_, hcursor, ?_, ?_⟩
  · rw [exec_read_eq husable hcap, hrun]
  · intro c a ha
    rw [State.report_readByte, ← hbytes c a ha, groupOffset, Nat.add_assoc, Nat.add_assoc, Nat.add_assoc]
  · rw [State.report_emitted, hkeeps.emitted, hkeeps.total, Nat.mul_comm n]
  · rw [State.report_regs, Regs.reported_toNat _ (by omega), hkeeps.emitted, hkeeps.total]

end Sys2Proof.Machine
end

section
/-! SUPPORT. The command word (30_encoding.md): which words each command decodes from, by its fields and by the masks of the
opcode table (R91 to R95), and what a step makes of a word written to `CMD` and of a command line (R90, R96, R97). -/

namespace Sys2Proof.Machine

/-- Settles O1: `decode_encode`, the decoder's branches on the fields of the word the encoder builds. -/
theorem decodeOfEncode : Obligations.DecodeOfEncode := fun _ => decode_encode

/-! The fields of a word as numbers (R91). -/

theorem opField_toNat (w : Word32) : (opField w).toNat = w.toNat / 2 ^ 24 := by
  have hw := w.isLt
  rw [opField, BitVec.extractLsb'_toNat, Nat.shiftRight_eq_div_pow]
  omega

theorem opndField_toNat (w : Word32) : (opndField w).toNat = w.toNat % 2 ^ 24 := by
  rw [opndField, BitVec.extractLsb'_toNat, Nat.shiftRight_zero]

theorem zeroField_toNat (w : Word32) : (zeroField w).toNat = w.toNat % 2 ^ 24 / 2 ^ 8 := by
  rw [zeroField, BitVec.extractLsb'_toNat, Nat.shiftRight_eq_div_pow]
  omega

theorem opField_eq_iff (w : Word32) (op : BitVec 8) : opField w = op ↔ w.toNat / 2 ^ 24 = op.toNat := by
  rw [← opField_toNat, BitVec.toNat_inj]

theorem opndField_eq_zero_iff (w : Word32) : opndField w = 0 ↔ w.toNat % 2 ^ 24 = 0 := by
  rw [← opndField_toNat, ← BitVec.toNat_inj]
  rfl

theorem zeroField_eq_zero_iff (w : Word32) : zeroField w = 0 ↔ w.toNat % 2 ^ 24 / 2 ^ 8 = 0 := by
  rw [← zeroField_toNat, ← BitVec.toNat_inj]
  rfl

theorem byteField_eq_ofNat (w : Word32) : byteField w = BitVec.ofNat 8 w.toNat := by
  apply BitVec.eq_of_toNat_eq
  rw [byteField, BitVec.extractLsb'_toNat, Nat.shiftRight_zero, BitVec.toNat_ofNat]

/-! The operands a field stands for (R92). -/

/-- The one count that fits the operand field and is written as it. -/
theorem countFits_and_opndField_iff (w : Word32) (n : Nat) :
    (countFits n = true ∧ opndField w = BitVec.ofNat 24 n) ↔ n = countOperand w := by
  simp only [countFits, decide_eq_true_eq, countOperand]
  constructor
  · rintro ⟨hn, h⟩
    rw [h, BitVec.toNat_ofNat, Nat.mod_eq_of_lt hn]
  · rintro rfl
    exact ⟨(opndField w).isLt, by simp⟩

/-- An operand is a byte's exactly when its upper 16 bits are 0 and its low 8 are the byte. -/
theorem opndField_eq_byte_iff (w : Word32) (b : Byte) :
    opndField w = b.setWidth 24 ↔ zeroField w = 0 ∧ b = byteField w := by
  constructor
  · intro h
    rw [← commandWord_fields w, h]
    simp
  · rintro ⟨hzero, rfl⟩
    exact (byteField_of_zeroField hzero).symm

theorem byteOperand_eq_ok_iff (w : Word32) (b : Byte) : byteOperand w = .ok b ↔ opndField w = b.setWidth 24 := by
  rw [opndField_eq_byte_iff, byteOperand, eq_comm (a := b)]
  split
  · rename_i hzero
    simp [hzero]
  · rename_i hzero
    exact iff_of_false (by simp) fun h => hzero h.1

/-- A command built of a byte operand: its operand field is that byte, with no bit above it set (R92). -/
theorem byteOperand_map_eq_ok {w : Word32} {mk : Byte → Instr} {i : Instr} (h : (byteOperand w).map mk = .ok i) :
    ∃ b, opndField w = b.setWidth 24 ∧ i = mk b := by
  cases hb : byteOperand w with
  | ok b =>
    rw [hb] at h
    cases h
    exact ⟨b, (byteOperand_eq_ok_iff w b).1 hb, rfl⟩
  | error e => simp [hb, Except.map] at h

/-! The decoder by the fields of the word (R93, R94). -/

/-- The fields of a word a command decodes from (R91). -/
theorem fields_of_decode {w : Word32} {i : Instr} (h : decode w = .ok i) :
    i.wellFormed = true ∧ opField w = i.opcode ∧ opndField w = i.operand := by
  have hcount : countFits (countOperand w) = true ∧ opndField w = BitVec.ofNat 24 (countOperand w) :=
    (countFits_and_opndField_iff w _).2 rfl
  unfold decode at h
  split_ifs at h with hop hopnd hop hop hop hop hop
  · cases h
    exact ⟨rfl, hop, hopnd⟩
  iterate 3
    · cases h
      exact ⟨hcount.1, hop, hcount.2⟩
  iterate 2
    · obtain ⟨b, hopnd, rfl⟩ := byteOperand_map_eq_ok h
      exact ⟨rfl, hop, hopnd⟩

/-- A word with a command's opcode and operand is the command's word (R91). -/
theorem encode_of_fields {w : Word32} {i : Instr} (hop : opField w = i.opcode) (hopnd : opndField w = i.operand) :
    encode i = w := by
  rw [encode, ← hop, ← hopnd, commandWord_fields]

/-- The decoder takes a word as the one well-formed command whose opcode and operand stand in its fields (R91, R93). -/
theorem decode_eq_ok_iff (w : Word32) (i : Instr) :
    decode w = .ok i ↔ i.wellFormed = true ∧ opField w = i.opcode ∧ opndField w = i.operand := by
  refine ⟨fields_of_decode, ?_⟩
  rintro ⟨hwf, hop, hopnd⟩
  rw [← encode_of_fields hop hopnd, decode_encode hwf]

/-- Settles O2: the fields of the word are the command's, and a word is its two fields. -/
theorem encodeOfDecode : Obligations.EncodeOfDecode := by
  intro w i h
  obtain ⟨hwf, hop, hopnd⟩ := fields_of_decode h
  exact ⟨hwf, encode_of_fields hop hopnd⟩

/-- The words that are commands: R93's rows with the operand bits R94 asks for. -/
theorem exists_decode_iff (w : Word32) :
    (∃ i, decode w = .ok i) ↔
      (opField w = 1#8 ∧ opndField w = 0) ∨ opField w = 2#8 ∨ opField w = 3#8 ∨ opField w = 4#8 ∨
        ((opField w = 5#8 ∨ opField w = 6#8) ∧ zeroField w = 0) := by
  constructor
  · rintro ⟨i, h⟩
    obtain ⟨-, hop, hopnd⟩ := fields_of_decode h
    cases i with
    | init => exact .inl ⟨hop, hopnd⟩
    | read n => exact .inr (.inl hop)
    | encd n => exact .inr (.inr (.inl hop))
    | encp n => exact .inr (.inr (.inr (.inl hop)))
    | rev b => exact .inr (.inr (.inr (.inr ⟨.inl hop, ((opndField_eq_byte_iff w b).1 hopnd).1⟩)))
    | norm b => exact .inr (.inr (.inr (.inr ⟨.inr hop, ((opndField_eq_byte_iff w b).1 hopnd).1⟩)))
  · have hcount := (countFits_and_opndField_iff w _).2 rfl
    rintro (⟨hop, hopnd⟩ | hop | hop | hop | ⟨hop | hop, hzero⟩)
    · exact ⟨.init, (decode_eq_ok_iff ..).2 ⟨rfl, hop, hopnd⟩⟩
    · exact ⟨.read _, (decode_eq_ok_iff ..).2 ⟨hcount.1, hop, hcount.2⟩⟩
    · exact ⟨.encd _, (decode_eq_ok_iff ..).2 ⟨hcount.1, hop, hcount.2⟩⟩
    · exact ⟨.encp _, (decode_eq_ok_iff ..).2 ⟨hcount.1, hop, hcount.2⟩⟩
    · exact ⟨.rev _, (decode_eq_ok_iff ..).2 ⟨rfl, hop, (byteField_of_zeroField hzero).symm⟩⟩
    · exact ⟨.norm _, (decode_eq_ok_iff ..).2 ⟨rfl, hop, (byteField_of_zeroField hzero).symm⟩⟩

/-! The masks of the opcode table (R93). -/

theorem commandWord_inj {op op' : BitVec 8} {opnd opnd' : BitVec 24} :
    commandWord op opnd = commandWord op' opnd' ↔ op = op' ∧ opnd = opnd' := by
  refine ⟨fun h => ⟨?_, ?_⟩, fun ⟨hop, hopnd⟩ => by rw [hop, hopnd]⟩
  · simpa using congrArg opField h
  · simpa using congrArg opndField h

/-- A mask over the whole opcode field compares the opcode and the masked operand. -/
theorem and_commandWord_eq_iff (w : Word32) (op : BitVec 8) (m : BitVec 24) :
    w &&& commandWord (BitVec.allOnes 8) m = commandWord op 0 ↔ opField w = op ∧ opndField w &&& m = 0 := by
  have hand : w &&& commandWord (BitVec.allOnes 8) m = commandWord (opField w) (opndField w &&& m) := by
    calc w &&& commandWord (BitVec.allOnes 8) m
      _ = commandWord (opField w) (opndField w) &&& commandWord (BitVec.allOnes 8) m := by rw [commandWord_fields]
      _ = commandWord (opField w &&& BitVec.allOnes 8) (opndField w &&& m) := BitVec.and_append
      _ = commandWord (opField w) (opndField w &&& m) := by rw [BitVec.and_allOnes]
  rw [hand, commandWord_inj]

/-- The operand field of `REV` and `NORM` is `opnd[23:8]` and the byte below it (R92). -/
theorem zeroField_append_byteField (w : Word32) : zeroField w ++ byteField w = opndField w :=
  BitVec.extractLsb'_append_extractLsb'_eq_extractLsb' rfl

/-- The operand bits that the mask of `REV` and `NORM` keeps are `opnd[23:8]`. -/
theorem opndField_and_eq_zero_iff (w : Word32) : opndField w &&& 0xFFFF00 = 0 ↔ zeroField w = 0 := by
  have hand : opndField w &&& (BitVec.allOnes 16 ++ 0#8) = zeroField w ++ 0#8 := by
    rw [← zeroField_append_byteField, BitVec.and_append, BitVec.and_allOnes, BitVec.and_zero]
  have hzero : zeroField w ++ 0#8 = 0#16 ++ 0#8 ↔ zeroField w = 0 := BitVec.append_left_inj _
  rw [← hzero, ← hand]
  rfl

/-- The one word of `INIT`. -/
theorem decode_init_iff (w : Word32) : decode w = .ok .init ↔ w &&& 0xFFFFFFFF = 0x01000000 := by
  have hmask : w &&& 0xFFFFFFFF = 0x01000000 ↔ opField w = 1 ∧ opndField w &&& BitVec.allOnes 24 = 0 :=
    and_commandWord_eq_iff w 1 (BitVec.allOnes 24)
  rw [hmask, BitVec.and_allOnes, decode_eq_ok_iff]
  exact and_iff_right rfl

/-- The row of a command with a count: `READ`, `ENCD`, `ENCP`. -/
theorem decode_count_iff (w : Word32) {i : Instr} {n : Nat} (op : BitVec 8) (hop : i.opcode = op)
    (hopnd : i.operand = BitVec.ofNat 24 n) (hwf : i.wellFormed = countFits n) :
    decode w = .ok i ↔ w &&& 0xFF000000 = commandWord op 0 ∧ n = w.toNat % 2 ^ 24 := by
  have hmask : w &&& 0xFF000000 = commandWord op 0 ↔ opField w = op ∧ opndField w &&& 0 = 0 :=
    and_commandWord_eq_iff w _ 0
  have hcount := countFits_and_opndField_iff w n
  rw [countOperand, opndField_toNat] at hcount
  rw [decode_eq_ok_iff, hwf, hop, hopnd, hmask, ← hcount]
  simp [and_left_comm]

/-- The row of a command with a byte: `REV`, `NORM`. -/
theorem decode_byte_iff (w : Word32) {i : Instr} {b : Byte} (op : BitVec 8) (hop : i.opcode = op)
    (hopnd : i.operand = b.setWidth 24) (hwf : i.wellFormed = true) :
    decode w = .ok i ↔ w &&& 0xFFFFFF00 = commandWord op 0 ∧ b = BitVec.ofNat 8 w.toNat := by
  have hmask : w &&& 0xFFFFFF00 = commandWord op 0 ↔ opField w = op ∧ opndField w &&& 0xFFFF00 = 0 :=
    and_commandWord_eq_iff w _ 0xFFFF00
  rw [decode_eq_ok_iff, hop, hopnd, opndField_eq_byte_iff, byteField_eq_ofNat, hmask, opndField_and_eq_zero_iff, and_assoc]
  exact and_iff_right hwf

/-- Settles O3: the row of `INIT`, and for the other five the row of a command with a count or with a byte. -/
theorem decodeFollowsTheOpcodeTable : Obligations.DecodeFollowsTheOpcodeTable := fun w =>
  ⟨decode_init_iff w, fun _ => decode_count_iff w 0x02 rfl rfl rfl, fun _ => decode_count_iff w 0x03 rfl rfl rfl,
    fun _ => decode_count_iff w 0x04 rfl rfl rfl, fun _ => decode_byte_iff w 0x05 rfl rfl rfl,
    fun _ => decode_byte_iff w 0x06 rfl rfl rfl⟩

/-! What a step makes of a word written to `CMD` (R90) and of a command line (R96, R97). -/

theorem State.issueWord_of_ok {w : Word32} {i : Instr} (h : decode w = .ok i) (s : State) : s.issueWord w = exec i s := by
  rw [State.issueWord, h]

/-- A word that is no command is refused with the decoder's reason (R94). -/
theorem State.issueWord_of_reserved {w : Word32} (h : ∀ i, decode w ≠ .ok i) (s : State) :
    ∃ e, s.issueWord w = .refused (.reservedWord e) := by
  cases hd : decode w with
  | ok i => exact absurd hd (h i)
  | error e => exact ⟨e, by rw [State.issueWord, hd]⟩

/-- A well-formed command by its mnemonic runs through its word (R96). -/
theorem State.issueCommand_of_wellFormed {i : Instr} (h : i.wellFormed = true) (s : State) :
    s.issueCommand i = exec i s := by
  rw [State.issueCommand, if_pos h, State.issueWord_of_ok (decode_encode h)]

theorem State.issueCommand_of_not_wellFormed {i : Instr} (h : i.wellFormed = false) (s : State) :
    s.issueCommand i = .refused (.operandTooWide i) := by
  simp [State.issueCommand, h]

/-- A write of register 12 issues the low 32 bits of the value (R90, log 11). -/
theorem step_wr_cmd {s : State} {v : Word64} {rest : List HostAction} (h : s.agent.todo = .wr 12 v :: rest) :
    step s = (s.popped rest).issueWord (v.setWidth 32) := step_cons h

/-- Settles O4: the words that are no command by `exists_decode_iff`, its fields read as numbers; a write of one issues it. -/
theorem reservedWordsAreRefused : Obligations.ReservedWordsAreRefused := by
  intro w
  refine ⟨?_, fun s v rest htodo hv hreserved => ?_⟩
  · have hfields := exists_decode_iff w
    simp only [opField_eq_iff, opndField_eq_zero_iff, zeroField_eq_zero_iff, BitVec.toNat_ofNat] at hfields
    rw [← not_exists, hfields]
    omega
  · rw [step_wr_cmd htodo, hv]
    exact State.issueWord_of_reserved hreserved _

/-- Settles O5: each word is the encoding of its command. -/
theorem workedExampleWordsDecode : Obligations.WorkedExampleWordsDecode :=
  ⟨decode_encode (i := .init) rfl, decode_encode (i := .read 4) rfl, decode_encode (i := .encd 8) rfl,
    decode_encode (i := .encp 3) rfl, decode_encode (i := .rev 0x1A) rfl, decode_encode (i := .norm 0xFF) rfl,
    decode_encode (i := .read 16777215) rfl⟩

/-- Settles O6: the write issues the word, and the word is the command's. -/
theorem stepRunsTheCommandWritten : Obligations.StepRunsTheCommandWritten := by
  intro s v rest i htodo hdecode
  rw [step_wr_cmd htodo]
  exact State.issueWord_of_ok hdecode _

/-- Settles O7: either line issues its command, which runs where a word holds its count. -/
theorem commandLinesRunTheirCommand : Obligations.CommandLinesRunTheirCommand := by
  intro s a i rest htodo hline
  have hstep : step s = (s.popped rest).issueCommand i := by
    rw [step_cons htodo]
    obtain rfl | ⟨rfl, rfl⟩ := hline <;> rfl
  rw [hstep]
  exact ⟨fun hwf => State.issueCommand_of_wellFormed hwf _, fun hwf => State.issueCommand_of_not_wellFormed hwf _⟩

/-- Settles O8: the value placed has the word as its low 32 bits, and taking the write off the script leaves `s`. -/
theorem placedWordRunsNext : Obligations.PlacedWordRunsNext := by
  intro s w i h
  have hdecode : decode (tableWord 32 w) = .ok i := by
    unfold decodeTableWord at h
    cases hd : decode (tableWord 32 w) with
    | ok j => simpa [hd, Except.toOption] using h
    | error e => simp [hd, Except.toOption] at h
  have hword : ((tableWord 32 w).setWidth 64).setWidth 32 = tableWord 32 w := by simp
  have hstep : step (s.withFetchWord 32 w) = s.issueWord (((tableWord 32 w).setWidth 64).setWidth 32) := step_wr_cmd rfl
  rw [hstep, hword, State.issueWord_of_ok hdecode]

end Sys2Proof.Machine
end

section
/-! SUPPORT. BRT (40_bit_reverse.md): the ROM holds each byte's reversal, `BitVec.reverse` (R120, R121), so its laws are those
of reversal; and what `REV` and `NORM` leave, with the words they decode from (R124, R125). -/

namespace Sys2Proof.Machine

/-! The contents of `TABLE` (R121): entry `n` is byte `n` reversed. -/

theorem Rom.tableLow_eq_reversals : Rom.tableLow = (List.range' 0 128).map fun n => (BitVec.ofNat 8 n).reverse := by
  rfl

theorem Rom.tableHigh_eq_reversals : Rom.tableHigh = (List.range' 128 128).map fun n => (BitVec.ofNat 8 n).reverse := by
  rfl

theorem Rom.table_eq_reversals : Rom.table = (List.range 256).map fun n => (BitVec.ofNat 8 n).reverse := by
  rw [Rom.table, Rom.tableLow_eq_reversals, Rom.tableHigh_eq_reversals, ← List.map_append, List.range'_append_1,
    List.range_eq_range']

theorem Rom.table_getElem? (x : Byte) : Rom.table[x.toNat]? = some x.reverse := by
  simp [Rom.table_eq_reversals, List.getElem?_range x.isLt]

/-- `TABLE[x]` is `x` with its bits in the opposite order (R120). -/
theorem Rom.lookup_eq_reverse (x : Byte) : Rom.lookup x = x.reverse := by
  rw [Rom.lookup, List.getD_eq_getElem?_getD, Rom.table_getElem?, Option.getD_some]

theorem reverse_getLsbD_of_lt (x : Byte) {i : Nat} (hi : i < 8) : x.reverse.getLsbD i = x.getLsbD (7 - i) := by
  rw [BitVec.getLsbD_reverse, BitVec.getMsbD_eq_getLsbD, decide_eq_true hi, Bool.true_and]

/-- Settles O9: the entry is the byte reversed, and so are its bits. -/
theorem tableReversesTheBitOrder : Obligations.TableReversesTheBitOrder := by
  refine ⟨by simp [Rom.table_eq_reversals], fun x i hi => ?_⟩
  rw [Rom.table_getElem?, Rom.lookup_eq_reverse]
  exact ⟨rfl, reverse_getLsbD_of_lt x hi⟩

/-- A byte that reversal fixes is its low nibble and, above that, the same nibble reversed. -/
theorem eq_nibble_append_of_reverse_eq {x : Byte} (h : x.reverse = x) :
    x = (x.setWidth 4).reverse ++ x.setWidth 4 := by
  refine BitVec.eq_of_getLsbD_eq fun i hi => ?_
  rw [BitVec.getLsbD_append]
  by_cases hlow : i < 4
  · simp [hlow]
  · have hmirror : x.getLsbD i = x.getLsbD (7 - i) := by rw [← reverse_getLsbD_of_lt x hi, h]
    rw [if_neg hlow, hmirror, BitVec.getLsbD_reverse, BitVec.getMsbD_eq_getLsbD, BitVec.getLsbD_setWidth]
    simp [show i - 4 < 4 by omega, show 4 - 1 - (i - 4) = 7 - i by omega, show 7 - i < 4 by omega]

/-- Settles O10: reversal is its own inverse, and a byte it fixes is one of 16, by its low nibble. -/
theorem tableIsSelfInverse : Obligations.TableIsSelfInverse := by
  intro x
  simp only [Rom.lookup_eq_reverse]
  refine ⟨BitVec.reverse_reverse_eq, fun h => ?_, fun h => ?_⟩
  · rw [eq_nibble_append_of_reverse_eq h]
    generalize x.setWidth 4 = nibble
    revert nibble
    decide
  · revert x
    decide

/-! The word and the next state of the two commands (R124, R125). -/

/-- The operand of `REV` and `NORM`: zeros above bit 7, and the byte (R92). -/
theorem setWidth_eq_zero_append (b : Byte) : b.setWidth 24 = 0#16 ++ b := BitVec.setWidth_eq_append (by decide)

/-- The word of a command with a byte: its opcode, zeros, and the byte (R91, R92). -/
theorem decode_byte_word {i : Instr} {b : Byte} (hopnd : i.operand = b.setWidth 24) (hwf : i.wellFormed = true) :
    decode (i.opcode ++ (0#16 ++ b)) = .ok i := by
  rw [← setWidth_eq_zero_append, ← hopnd]
  exact decode_encode hwf

/-- A command that reports a byte and no error: the byte zero-extended in `RESULT`, and nothing else touched. -/
theorem State.setOutcome_byte (s : State) (b : Byte) :
    s.setOutcome b.toNat 0 = { s with regs := { s.regs with result := b.setWidth 32, statusErr := 0 } } := by
  rw [State.setOutcome, BitVec.ofNat_toNat]

/-- Settles O11: the word is the command's, and the byte reported is `TABLE[b]`. -/
theorem revLooksUpTheTable : Obligations.RevLooksUpTheTable := by
  intro b s
  refine ⟨decode_byte_word (i := .rev b) rfl rfl, ?_⟩
  rw [exec_rev_eq, State.setOutcome_byte]

/-- Settles O12: the word is the command's, and the byte reported is `norm(FMT_LSBF, b)`. -/
theorem normFollowsTheActiveFormat : Obligations.NormFollowsTheActiveFormat := by
  intro b s
  refine ⟨decode_byte_word (i := .norm b) rfl rfl, ?_⟩
  rw [exec_norm_eq, State.setOutcome_byte, norm]

end Sys2Proof.Machine
end

section
/-! SUPPORT. `INIT` and `READ` by what their host duties leave of them (41_block_reader.md R131, R132): a `READ` within its duties
is the outcome of its loop. From that the calls that meet the end of the stream or nothing to do (R135, R139, R140), those that
never end (R141, R249), what every call leaves alone (R143), and the bytes a series of calls reports (R136, R137). -/

namespace Sys2Proof.Machine

/-- Settles O13: `exec_init_eq`, applied to the state `INIT` leaves for the second one, and to reset. -/
theorem initActivatesTheStagedFormat : Obligations.InitActivatesTheStagedFormat := by
  refine ⟨(decode_init_iff _).2 (by decide), fun s hready hblksz => ⟨.inUse, exec_init_eq hready hblksz⟩,
    fun s t h => ?_, ⟨.inUse, exec_init_eq ⟨rfl, fun _ => rfl⟩ (Nat.zero_le _)⟩⟩
  obtain ⟨hready, hblksz, rfl⟩ := exec_init_next h
  exact exec_init_eq hready hblksz

/-- A `READ n` within its host duties ends as its loop does. -/
theorem exec_read_outcome {s : State} {n : Nat} (husable : s.sourceUsable n) (hcap : n ≤ s.build.chCap) :
    exec (.read n) s = (readLoop (s.readFuel n) n 0 s).outcome := exec_read_eq husable hcap

/-- The same for any bound on the iterations that the loop does not exhaust (log 7). -/
theorem exec_read_of_readLoop {s : State} {n k : Nat} {e : ReadEnd} (husable : s.sourceUsable n) (hcap : n ≤ s.build.chCap)
    (hreader : s.readerOk) (hloop : readLoop k n 0 s = e) (hends : e ≠ .stuck .readNeverEnds) :
    exec (.read n) s = e.outcome := by
  rw [exec_read_outcome husable hcap, readLoop_enough (fuel := s.readFuel n) hreader (Nat.le_refl _) (hloop ▸ hends), hloop]

/-- A `READ` of some bytes has a first iteration. -/
theorem State.readFuel_succ (s : State) (n : Nat) : s.readFuel (n + 1) = n + s.src.budget + 1 := Nat.add_right_comm ..

/-- Settles O14: the loop has nothing to serve, and no truncation takes place. -/
theorem readZeroChangesNothing : Obligations.ReadZeroChangesNothing := by
  intro s husable hemitted
  have hreported : s.regs.reported 0 = 0 := Nat.le_zero.1 (s.regs.reported_le 0)
  have hafter : s.regs.emittedAfter 0 = s.regs.rdEmitted.toNat := by simpa [Regs.emittedAfter] using hemitted
  rw [exec_read_outcome husable (Nat.zero_le _), readLoop_done, ReadEnd.outcome, State.report, hreported, hafter,
    BitVec.ofNat_toNat, BitVec.setWidth_eq]
  rfl

/-- Settles O19: the first iteration ends the loop, by `readLoop_refill_empty`. -/
theorem readAtEndOfStreamReportsZero : Obligations.ReadAtEndOfStreamReportsZero := by
  intro s n src husable hn hcap hexhausted hread
  obtain ⟨n, rfl⟩ := Nat.exists_eq_add_one.2 hn
  rw [exec_read_outcome husable hcap, State.readFuel_succ, readLoop_refill_empty hexhausted hread]
  rfl

/-- Settles O15: `SrcRead(0)` yields nothing and leaves the source alone, so it is O19's case. -/
theorem readBeforeConfigurationReportsTheEnd : Obligations.ReadBeforeConfigurationReportsTheEnd := by
  intro s n husable hn hcap hblksz hfilled hpos
  have hread : s.src.read (2 * s.regs.rdBlksz.toNat) = some ([], s.src) := by simp [hblksz, Source.read]
  exact readAtEndOfStreamReportsZero s n s.src husable hn hcap (hpos.trans hfilled.symm) hread

/-- A block size that is not 0 asks the source for bytes. -/
theorem Regs.request_ne_zero {r : Regs} (h : r.rdBlksz ≠ 0) : 2 * r.rdBlksz.toNat ≠ 0 :=
  Nat.mul_ne_zero two_ne_zero fun hz => h (BitVec.eq_of_toNat_eq hz)

/-- A refill from a source that never answers has no next state (R141). -/
theorem State.refill_silent {s : State} {rest : List SourceAnswer} (hblksz : s.regs.rdBlksz ≠ 0)
    (hsilent : s.src.answers = .never :: rest) : s.refill = .stuck .sourceNeverAnswers := by
  simp only [State.refill, Source.read, if_neg (Regs.request_ne_zero hblksz), hsilent]

/-- Settles O26: the first iteration asks for a refill, and `State.refill_silent`. -/
theorem readHangsOnASilentSource : Obligations.ReadHangsOnASilentSource := by
  intro s n rest husable hn hcap hexhausted hblksz hsilent
  obtain ⟨n, rfl⟩ := Nat.exists_eq_add_one.2 hn
  rw [exec_read_outcome husable hcap, State.readFuel_succ, readLoop_step, State.refillIfExhausted, if_pos hexhausted,
    State.refill_silent hblksz hsilent]
  rfl

/-- Settles O27: no bound on the iterations is enough, by `readLoop_useless`. -/
theorem readHangsOnAUselessSource : Obligations.ReadHangsOnAUselessSource := by
  intro s n husable hn hcap hreader hexhausted hblksz hanswers huseless
  obtain ⟨n, rfl⟩ := Nat.exists_eq_add_one.2 hn
  rw [exec_read_outcome husable hcap, readLoop_useless _ hreader hexhausted hblksz hanswers huseless]
  rfl

/-- A `READ` that is not refused is within its host duties. -/
theorem exec_read_duties {s : State} {n : Nat} (h : ∀ r, exec (.read n) s ≠ .refused r) :
    s.sourceUsable n ∧ n ≤ s.build.chCap := by
  have hsource : s.src.discarded = false :=
    Bool.eq_false_iff.2 fun hd => h _ ((exec_read_refused_iff ..).2 (.inl ⟨hd, rfl⟩))
  have hcap : n ≤ s.build.chCap :=
    Nat.le_of_not_lt fun hlt => h _ ((exec_read_refused_iff ..).2 (.inr ⟨hsource, .inl ⟨hlt, rfl⟩⟩))
  refine ⟨⟨hsource, fun hstrict => Bool.of_not_eq_false fun hkept => ?_⟩, hcap⟩
  exact h _ ((exec_read_refused_iff ..).2 (.inr ⟨hsource, .inr ⟨hcap, hstrict, hkept, rfl⟩⟩))

/-- How the loop of a `READ n` with the fuel it is given can stop under the invariant: `readLoop_ok`. -/
theorem State.Inv.readLoop_stuck {s : State} {n : Nat} {f : Fault} (h : s.Inv) (hcap : n ≤ s.build.chCap)
    (hloop : readLoop (s.readFuel n) n 0 s = .stuck f) :
    f = .sourceNeverAnswers ∧ SourceAnswer.never ∈ s.src.answers ∨ f = .readNeverEnds ∧ s.src.useless := by
  have hok := readLoop_ok (ret := 0) h.reader h.memories (by omega) (.inl (Nat.le_refl (s.readFuel n)))
  rwa [hloop] at hok

/-- Settles O24: a loop that stops would need one of the two sources excluded. -/
theorem readCompletesWhenTheSourceAnswers : Obligations.ReadCompletesWhenTheSourceAnswers := by
  intro s n hinv husable hanswers hcap
  rw [exec_read_outcome husable hcap]
  cases hloop : readLoop (s.readFuel n) n 0 s with
  | served ret t => exact ⟨_, rfl⟩
  | empty t => exact ⟨_, rfl⟩
  | stuck f =>
    obtain ⟨-, hnever⟩ | ⟨-, huseless⟩ := hinv.readLoop_stuck hcap hloop
    · exact absurd rfl (hanswers.1 _ hnever)
    · exact absurd huseless hanswers.2

/-- Settles O25: a fault is the loop's, and `State.Inv.readLoop_stuck`. -/
theorem readFaultsOnlyOnASourceThatHangsIt : Obligations.ReadFaultsOnlyOnASourceThatHangsIt := by
  intro s n f hinv hfault
  obtain ⟨husable, hcap⟩ := exec_read_duties (s := s) (n := n) (by simp [hfault])
  rw [exec_read_outcome husable hcap] at hfault
  cases hloop : readLoop (s.readFuel n) n 0 s with
  | served ret t => simp [hloop, ReadEnd.outcome] at hfault
  | empty t => simp [hloop, ReadEnd.outcome] at hfault
  | stuck e =>
    obtain rfl : e = f := by simpa [hloop, ReadEnd.outcome] using hfault
    exact hinv.readLoop_stuck hcap hloop

/-- A `READ n` that completes reports at most `n` (R143). -/
theorem exec_read_result_le {s t : State} {n : Nat} (h : exec (.read n) s = .next t) : t.regs.result.toNat ≤ n := by
  obtain ⟨u, -, rfl | rfl⟩ := exec_read_keeps h
  · rw [State.report_regs, BitVec.toNat_ofNat]
    exact (Nat.mod_le _ _).trans (u.regs.reported_le n)
  · exact Nat.zero_le _

/-- The loop of `READ` leaves `OUT` alone (R132). -/
theorem ReadKeeps.out_readByte {lo hi : Nat} {s t : State} (h : ReadKeeps lo hi s t) (a : Nat) :
    t.readByte .out a = s.readByte .out a := State.readByte_congr (sp := .out) h.out h.epoch a

/-- Settles O28: the count by `exec_read_result_le` and `exec_read_emitted`, the frame by `exec_read_keeps`. -/
theorem readWritesAtMostWhatWasAsked : Obligations.ReadWritesAtMostWhatWasAsked := by
  intro s t n h
  have hcount := fun hinv : s.Inv => exec_read_emitted (hinv.build.2.2.2.trans (by decide)) h
  obtain ⟨u, hu, ht⟩ := exec_read_keeps h
  refine ⟨exec_read_result_le h, hcount, fun c a ha => ?_, fun a => ?_, ?_⟩
  · have hch := hu.ch c a (.inr ha)
    obtain rfl | rfl := ht <;> simpa using hch
  · have hout := hu.out_readByte a
    obtain rfl | rfl := ht <;> simpa using hout
  · obtain rfl | rfl := ht <;> rw [hu.eq] <;> rfl

/-- With the declared count used up, all that is served is cut off again (R136, R137). -/
theorem Regs.reported_of_emitted_eq {r : Regs} (h : r.rdEmitted = r.fmtTotal) (ret : Nat) : r.reported ret = 0 := by
  simp only [Regs.reported, h]
  split <;> omega

theorem Regs.emittedAfter_of_emitted_eq {r : Regs} (h : r.rdEmitted = r.fmtTotal) (ret : Nat) :
    r.emittedAfter ret = r.fmtTotal.toNat := by
  rw [Regs.emittedAfter, h]
  omega

/-- Settles O30: a served request is cut to nothing, and one that meets the end of the stream reports nothing anyway. -/
theorem nothingIsReportedPastTheDeclaredCount : Obligations.NothingIsReportedPastTheDeclaredCount := by
  intro s t n hall h
  obtain ⟨u, hu, rfl | rfl⟩ := exec_read_keeps h
  · have hall' : u.regs.rdEmitted = u.regs.fmtTotal := by rw [hu.emitted, hu.total, hall]
    simp [Regs.reported_of_emitted_eq hall', Regs.emittedAfter_of_emitted_eq hall', hu.total, hall]
  · exact ⟨rfl, hu.emitted⟩

/-- `served` bytes per channel have been reported in all (R137): `RD_EMITTED / 8` of them until a call truncates, from then on
`FMT_TOTAL / 8` rounded up. -/
def State.Reported (s : State) (served : Nat) : Prop :=
  s.regs.rdEmitted.toNat = 8 * served ∨
    s.regs.rdEmitted = s.regs.fmtTotal ∧ served = (s.regs.fmtTotal.toNat + 7) / 8

/-- What a command adds to the bytes reported: its `RESULT`, if it is a `READ` (R34, R137). -/
def reportedBy (i : Instr) (t : State) : Nat := if i.isRead then t.regs.result.toNat else 0

theorem servedBy_cons_eq_some {i : Instr} {is : List Instr} {s u : State} {total : Nat}
    (h : servedBy (i :: is) s = some (total, u)) :
    ∃ t rest, exec i s = .next t ∧ servedBy is t = some (rest, u) ∧ total = reportedBy i t + rest := by
  rw [servedBy] at h
  split at h
  · rename_i t heq
    obtain ⟨⟨rest, v⟩, hrest, hp⟩ := Option.map_eq_some_iff.1 h
    obtain ⟨rfl, rfl⟩ := Prod.mk.inj hp
    exact ⟨t, rest, heq, hrest, rfl⟩
  · simp at h

/-- One `READ` adds its `RESULT` to the bytes reported (R136). -/
theorem State.Reported.after_read {s t : State} {n served : Nat} (h : s.Reported served) (hinv : s.Inv)
    (ht : exec (.read n) s = .next t) : t.Reported (served + t.regs.result.toNat) := by
  have htotal : t.regs.fmtTotal = s.regs.fmtTotal := (exec_format (by simp) ht).total
  have hle := hinv.emitted.1
  rw [State.Reported, htotal]
  obtain ⟨hresult, hemitted⟩ | ⟨hresult, hemitted⟩ := exec_read_emitted (hinv.build.2.2.2.trans (by decide)) ht
  · rw [hresult, hemitted]
    exact h
  · obtain hbefore | ⟨hall, hserved⟩ := h
    · by_cases hfits : s.regs.rdEmitted.toNat + 8 * n ≤ s.regs.fmtTotal.toNat
      · exact .inl (by omega)
      · exact .inr ⟨BitVec.eq_of_toNat_eq (by omega), by omega⟩
    · rw [hall] at hresult hemitted
      exact .inr ⟨BitVec.eq_of_toNat_eq (by omega), by omega⟩

/-- A command that is no `INIT` adds to the bytes reported what it reports itself. -/
theorem State.Reported.after_command {i : Instr} {s t : State} {served : Nat} (h : s.Reported served) (hinv : s.Inv)
    (hinit : i ≠ .init) (ht : exec i s = .next t) : t.Reported (served + reportedBy i t) := by
  cases i with
  | init => exact absurd rfl hinit
  | read n => exact h.after_read hinv ht
  | encd n | encp n | rev b | norm b =>
    rw [exec_changes_out_only hinit rfl ht]
    exact h

/-- Over a series of commands with no `INIT` the bytes reported add up, the invariant stays and so does the declared count. -/
theorem State.Reported.after_series {is : List Instr} {s t : State} {served total : Nat} (h : s.Reported served) (hinv : s.Inv)
    (hinit : ∀ i ∈ is, i ≠ .init) (hrun : servedBy is s = some (total, t)) :
    t.Reported (served + total) ∧ t.Inv ∧ t.regs.fmtTotal = s.regs.fmtTotal := by
  induction is generalizing s served total with
  | nil =>
    obtain ⟨rfl, rfl⟩ := Prod.mk.inj (Option.some.inj hrun)
    exact ⟨h, hinv, rfl⟩
  | cons i is ih =>
    obtain ⟨u, rest, hexec, hrest, rfl⟩ := servedBy_cons_eq_some hrun
    obtain ⟨hi, his⟩ := List.forall_mem_cons.1 hinit
    obtain ⟨hreported, hinv', htotal⟩ := ih (h.after_command hinv hi hexec) (exec_inv hinv hexec) his hrest
    rw [Nat.add_assoc] at hreported
    exact ⟨hreported, hinv', htotal.trans (exec_format hi hexec).total⟩

/-- Settles O31: `State.Reported.after_series` from a reader that has reported nothing. -/
theorem reportedBytesAddUpToTheDeclaredCount : Obligations.ReportedBytesAddUpToTheDeclaredCount := by
  intro is s t total hinv hzero hinit hrun
  have hnone : s.Reported 0 := .inl (by simp [hzero])
  obtain ⟨hreported, hinv', htotal⟩ := hnone.after_series hinv hinit hrun
  have hle := hinv'.emitted.1
  rw [Nat.zero_add, State.Reported, htotal] at hreported
  rw [htotal] at hle
  exact ⟨by obtain hexact | ⟨-, hall⟩ := hreported <;> omega, hreported⟩

end Sys2Proof.Machine
end

section
/-! SUPPORT. `READ` over any series of refills (41_block_reader.md R132 to R136, R138, R141). `Serves` says where the loop stands
once it has taken some of them and the buffer is exhausted again; the unread bytes are one such stretch, a refill is another,
and stretches follow one another by `Serves.trans`. A last refill that covers the request, or an empty one, ends the loop. -/

namespace Sys2Proof.Machine

/-- One iteration of the loop from a buffer with unread bytes: a copy and no refill (R133, R134). -/
theorem readLoop_buffered {s : State} {fuel rem ret : Nat} (hr : s.readerOk) (hp : s.regs.rdPos ≠ s.regs.rdFilled) :
    readLoop (fuel + 1) (rem + 1) ret s =
      readLoop fuel (rem + 1 - s.copyCount (rem + 1)) (ret + s.copyCount (rem + 1))
        (s.copyOut ret (s.copyCount (rem + 1))) := by
  rw [readLoop_step]
  simp only [State.refillIfExhausted, if_neg hp, State.copy_inRange hr, if_true]

/-- The refill test of R133 finds the buffer exhausted just when no byte is unread. -/
theorem State.exhausted_iff {s : State} (hr : s.readerOk) :
    s.regs.rdPos = s.regs.rdFilled ↔ s.regs.rdFilled.toNat - s.regs.rdPos.toNat = 0 := by
  obtain ⟨hpos, -, -⟩ := hr
  rw [← BitVec.toNat_inj]
  omega

/-- `RD_EMITTED` after a served `READ n`, from the state its loop starts in (R136). -/
theorem ReadKeeps.report_emitted {lo hi : Nat} {s u : State} (h : ReadKeeps lo hi s u) (n : Nat) :
    (u.report n).regs.rdEmitted.toNat = min (s.regs.rdEmitted.toNat + 8 * n) s.regs.fmtTotal.toNat := by
  rw [State.report_emitted, h.emitted, h.total, Nat.mul_comm n]

/-- `RESULT` after a served `READ n`, from the state its loop starts in (R136). -/
theorem ReadKeeps.report_result {lo hi n : Nat} {s u : State} (h : ReadKeeps lo hi s u) (hn : n < 2 ^ 32) :
    (u.report n).regs.result.toNat = n - (s.regs.rdEmitted.toNat + 8 * n - s.regs.fmtTotal.toNat) / 8 := by
  rw [State.report_regs, Regs.reported_toNat _ hn, h.emitted, h.total]

/-- Settles O16: one iteration serves the request, by `readLoop_buffered`. -/
theorem readServesFromTheBuffer : Obligations.ReadServesFromTheBuffer := by
  intro s n husable hn hcap hreader hfits
  have hfilled := s.regs.rdFilled.isLt
  have hloop : readLoop 1 n 0 s = .served n (s.copyOut 0 n) := by
    obtain ⟨r, rfl⟩ := Nat.exists_eq_add_one.2 hn
    have hcount : s.copyCount (r + 1) = r + 1 := Nat.min_eq_left (by omega)
    rw [readLoop_buffered hreader (fun h => by rw [h] at hfits; omega), hcount, Nat.sub_self, readLoop_done, Nat.zero_add]
  have hkeeps := readLoop_served_keeps hloop
  refine ⟨(s.copyOut 0 n).report n, exec_read_of_readLoop husable hcap hreader hloop (by simp), fun c a => ?_,
    State.copyOut_pos (ret := 0) hfits, hkeeps.report_emitted n, hkeeps.report_result (by omega), rfl⟩
  rw [State.report_readByte, State.copyOut_readByte]
  simp [State.unread]

/-- From `s` to `t`, `CH[c][ret ..]` takes the first `m` bytes of `chunk c`, and the rest of `CH[c]` keeps its bytes. -/
def Appends (ret m : Nat) (chunk : Fin 2 → List Byte) (s t : State) : Prop :=
  ∀ (c : Fin 2) (a : Nat), t.readByte (.ch c) a =
    if ret ≤ a ∧ a < ret + m then (chunk c).getD (a - ret) 0 else s.readByte (.ch c) a

/-- What is appended after a whole chunk continues it. -/
theorem Appends.trans {ret m k : Nat} {x y : Fin 2 → List Byte} {s t u : State} (h1 : Appends ret m x s t)
    (hx : ∀ c, (x c).length = m) (h2 : Appends (ret + m) k y t u) :
    Appends ret (m + k) (fun c => x c ++ y c) s u := by
  intro c a
  rw [h2 c a, h1 c a]
  by_cases hold : a < ret + m
  · by_cases hlow : ret ≤ a
    · rw [if_neg (by omega), if_pos ⟨hlow, hold⟩, if_pos ⟨hlow, by omega⟩,
        List.getD_append _ _ _ _ (by rw [hx c]; omega)]
    · rw [if_neg (by omega), if_neg (by omega), if_neg (by omega)]
  · by_cases hnew : a < ret + m + k
    · rw [if_pos (by omega), if_pos (by omega), List.getD_append_right _ _ _ _ (by rw [hx c]; omega), hx c,
        Nat.sub_add_eq]
    · rw [if_neg (by omega), if_neg (by omega), if_neg (by omega)]

/-- The copy step appends the bytes it copies (R134). -/
theorem State.copyOut_appends (s : State) (ret m : Nat) :
    Appends ret m (fun c => s.readBytes .buf (s.unread c) m) s (s.copyOut ret m) := by
  intro c a
  rw [State.copyOut_readByte]
  split
  · have hlt : a - ret < m := by omega
    rw [List.getD, State.readBytes_getElem? _ _ _ _ _ hlt]
    rfl
  · rfl

theorem deliver_cons (blksz c : Nat) (buf : Nat → Byte) (bytes : List Byte) (rest : List (List Byte)) :
    deliver blksz c buf (bytes :: rest) =
      deliver blksz c buf [bytes] ++ deliver blksz c (refillContents buf bytes) rest := by
  simp [deliver]

/-- The bytes of one refill for a channel, by position in the channel's region of `BUF` (R70, R138). -/
theorem deliver_singleton_getD {blksz c k : Nat} {buf : Nat → Byte} {bytes : List Byte} (h : k < bytes.length / 2) :
    (deliver blksz c buf [bytes]).getD k 0 = refillContents buf bytes (c * blksz + k) := by
  simp [deliver, List.getD, h]

@[simp] theorem deliver_singleton_length (blksz c : Nat) (buf : Nat → Byte) (bytes : List Byte) :
    (deliver blksz c buf [bytes]).length = bytes.length / 2 := by simp [deliver]

/-- What is delivered after some refills comes from `BUF` as they leave it (R138). -/
theorem deliver_append (blksz c : Nat) (buf : Nat → Byte) (refills more : List (List Byte)) :
    deliver blksz c buf (refills ++ more) =
      deliver blksz c buf refills ++ deliver blksz c (refills.foldl refillContents buf) more := by
  induction refills generalizing buf with
  | nil => rfl
  | cons bytes rest ih => rw [List.cons_append, deliver_cons, ih, deliver_cons _ _ _ _ rest, List.append_assoc]; rfl

theorem servable_cons (bytes : List Byte) (rest : List (List Byte)) :
    servable (bytes :: rest) = bytes.length / 2 + servable rest := by simp [servable]

/-- The refills up to the last one, and the last one. -/
theorem Source.yields_concat {k : Nat} {a src : Source} {refills : List (List Byte)} {last : List Byte}
    (h : a.yields k (refills ++ [last]) src) :
    ∃ mid, a.yields k refills mid ∧ last ≠ [] ∧ mid.read k = some (last, src) := by
  induction refills generalizing a with
  | nil =>
    obtain ⟨hne, mid, hread, rfl⟩ := h
    exact ⟨a, rfl, hne, hread⟩
  | cons bytes rest ih =>
    obtain ⟨hne, b, hread, hrest⟩ := h
    obtain ⟨mid, hmid, hlast⟩ := ih hrest
    exact ⟨mid, ⟨hne, b, hread, hmid⟩, hlast⟩

/-- `BUF` after a refill, as a whole (R133). -/
theorem State.refilled_contents (s : State) (bytes : List Byte) (src : Source) :
    (s.refilled bytes src).readByte .buf = refillContents (s.readByte .buf) bytes :=
  funext fun a => s.refilled_readByte bytes src a

/-- A refill leaves `CH` alone (R71, R133). -/
theorem State.refilled_readByte_ch (s : State) (bytes : List Byte) (src : Source) (c : Fin 2) (a : Nat) :
    (s.refilled bytes src).readByte (.ch c) a = s.readByte (.ch c) a := by
  rcases channel_cases c with rfl | rfl <;> rfl

@[simp] theorem State.copyOut_contents (s : State) (ret m : Nat) :
    (s.copyOut ret m).readByte .buf = s.readByte .buf := rfl

/-- A refill and a copy of at most what it has to serve append the first of those bytes (R134, R138). -/
theorem State.refilled_copyOut_appends (s : State) {bytes : List Byte} (src : Source) (ret : Nat) {m : Nat}
    (hm : m ≤ bytes.length / 2) :
    Appends ret m (fun c => deliver s.regs.rdBlksz.toNat c.val (s.readByte .buf) [bytes]) s
      ((s.refilled bytes src).copyOut ret m) := by
  intro c a
  rw [State.copyOut_readByte]
  split
  · rw [deliver_singleton_getD (by omega), State.refilled_contents]
    simp [State.unread]
  · exact s.refilled_readByte_ch bytes src c a

/-- The loop of `READ`, `ret` bytes into its request, goes from `s` to `t` by taking `refills` from the source, which is then
`src`, and appends `chunk c`, `m` bytes, to `CH[c]`, whatever more than that is asked for. In `t` the buffer is exhausted
and `BUF` holds the refills one over the other. -/
structure Serves (ret m : Nat) (chunk : Fin 2 → List Byte) (refills : List (List Byte)) (src : Source) (s t : State) :
    Prop where
  loop      : ∀ rem, m < rem → ∃ k, ∀ fuel, readLoop (fuel + k) rem ret s = readLoop fuel (rem - m) (ret + m) t
  reader    : t.readerOk
  exhausted : t.regs.rdPos = t.regs.rdFilled
  blksz     : t.regs.rdBlksz = s.regs.rdBlksz
  filled    : t.regs.rdFilled.toNat = (refills.getLast?.map fun bytes => bytes.length / 2).getD s.regs.rdFilled.toNat
  source    : t.src = src
  buf       : t.readByte .buf = refills.foldl refillContents (s.readByte .buf)
  length    : ∀ c, (chunk c).length = m
  ch        : Appends ret m chunk s t

/-- One stretch of the loop after another. -/
theorem Serves.trans {ret m k : Nat} {x y : Fin 2 → List Byte} {refills more : List (List Byte)} {mid src : Source}
    {s t u : State} (h1 : Serves ret m x refills mid s t) (h2 : Serves (ret + m) k y more src t u) :
    Serves ret (m + k) (fun c => x c ++ y c) (refills ++ more) src s u where
  loop rem hrem := by
    obtain ⟨i, hi⟩ := h1.loop rem (by omega)
    obtain ⟨j, hj⟩ := h2.loop (rem - m) (by omega)
    exact ⟨j + i, fun fuel => by rw [← Nat.add_assoc, hi, hj, Nat.sub_add_eq, Nat.add_assoc]⟩
  reader := h2.reader
  exhausted := h2.exhausted
  blksz := h2.blksz.trans h1.blksz
  filled := by
    rw [h2.filled, h1.filled, List.getLast?_append]
    cases more.getLast? <;> rfl
  source := h2.source
  buf := by rw [h2.buf, h1.buf, List.foldl_append]
  length c := by rw [List.length_append, h1.length, h2.length]
  ch := h1.ch.trans h1.length h2.ch

/-- An exhausted buffer has nothing to serve. -/
theorem Serves.refl {s : State} (ret : Nat) (hr : s.readerOk) (hp : s.regs.rdPos = s.regs.rdFilled) :
    Serves ret 0 (fun _ => []) [] s.src s s where
  loop _ _ := ⟨0, fun _ => rfl⟩
  reader := hr
  exhausted := hp
  blksz := rfl
  filled := rfl
  source := rfl
  buf := rfl
  length _ := rfl
  ch _ _ := by rw [if_neg (by omega)]

/-- The unread bytes of the buffer come first, without a refill (R133, R134). -/
theorem State.serves_unread {s : State} (ret : Nat) (hr : s.readerOk) :
    ∃ t, Serves ret (s.regs.rdFilled.toNat - s.regs.rdPos.toNat)
      (fun c => s.readBytes .buf (s.unread c) (s.regs.rdFilled.toNat - s.regs.rdPos.toNat)) [] s.src s t := by
  by_cases hp : s.regs.rdPos = s.regs.rdFilled
  · rw [(State.exhausted_iff hr).1 hp]
    exact ⟨s, Serves.refl ret hr hp⟩
  · generalize hm : s.regs.rdFilled.toNat - s.regs.rdPos.toNat = m
    have hcount : ∀ rem, m ≤ rem → s.copyCount rem = m := fun rem h => by rw [State.copyCount, hm, Nat.min_eq_right h]
    have hpos : (s.copyOut ret m).regs.rdPos.toNat = s.regs.rdPos.toNat + m :=
      State.copyOut_pos (by have := hr.1; omega)
    refine ⟨s.copyOut ret m, fun rem hrem => ?_, ?_, ?_, rfl, rfl, rfl, rfl, fun _ => by simp, s.copyOut_appends ret m⟩
    · obtain ⟨r, rfl⟩ := Nat.exists_eq_add_one.2 (Nat.zero_lt_of_lt hrem)
      exact ⟨1, fun fuel => by rw [readLoop_buffered hr hp, hcount _ hrem.le]⟩
    · rw [← hcount m le_rfl]
      exact State.copyOut_readerOk hr ret m
    · refine BitVec.eq_of_toNat_eq ?_
      have := hr.1
      rw [hpos, State.copyOut_regs]
      show _ = s.regs.rdFilled.toNat
      omega

/-- A refill serves half its length, rounded down, of each channel (R133, R134, R138). -/
theorem State.serves_refill {s : State} {bytes : List Byte} {src : Source} (ret : Nat) (hr : s.readerOk)
    (hp : s.regs.rdPos = s.regs.rdFilled) (hread : s.src.read (2 * s.regs.rdBlksz.toNat) = some (bytes, src))
    (hne : bytes ≠ []) :
    Serves ret (bytes.length / 2) (fun c => deliver s.regs.rdBlksz.toNat c.val (s.readByte .buf) [bytes]) [bytes] src s
      ((s.refilled bytes src).copyOut ret (bytes.length / 2)) := by
  have hlen := (Source.read_spec hread).1
  have hfilled := State.refilled_filled (src := src) hlen
  have hr' := State.refilled_readerOk (src := src) hr hlen
  have hcount : (s.refilled bytes src).copyCount (bytes.length / 2) = bytes.length / 2 := by
    rw [State.copyCount, hfilled]
    exact min_self _
  refine ⟨fun rem hrem => ?_, ?_, ?_, rfl, hfilled, rfl, ?_, fun _ => by simp,
    s.refilled_copyOut_appends src ret le_rfl⟩
  · obtain ⟨r, rfl⟩ := Nat.exists_eq_add_one.2 (Nat.zero_lt_of_lt hrem)
    exact ⟨1, fun fuel => by rw [readLoop_refill hr hp hread hne, Nat.min_eq_right hrem.le]⟩
  · rw [← hcount]
    exact State.copyOut_readerOk hr' ret _
  · simp
  · rw [State.copyOut_contents, State.refilled_contents]
    rfl

/-- A series of refills, none of them empty, from an exhausted buffer (R132, R141). -/
theorem State.serves_refills {s : State} {refills : List (List Byte)} {src : Source} (ret : Nat) (hr : s.readerOk)
    (hp : s.regs.rdPos = s.regs.rdFilled) (hyields : s.src.yields (2 * s.regs.rdBlksz.toNat) refills src) :
    ∃ t, Serves ret (servable refills) (fun c => deliver s.regs.rdBlksz.toNat c.val (s.readByte .buf) refills) refills
      src s t := by
  induction refills generalizing s ret with
  | nil =>
    obtain rfl : src = s.src := hyields
    exact ⟨s, Serves.refl ret hr hp⟩
  | cons bytes rest ih =>
    obtain ⟨hne, mid, hread, hrest⟩ := hyields
    have hfirst := State.serves_refill ret hr hp hread hne
    generalize (s.refilled bytes mid).copyOut ret (bytes.length / 2) = t at hfirst
    rw [← hfirst.source, ← hfirst.blksz] at hrest
    obtain ⟨u, hothers⟩ := ih (ret + bytes.length / 2) hfirst.reader hfirst.exhausted hrest
    refine ⟨u, ?_⟩
    have hall := hfirst.trans hothers
    rw [hfirst.blksz, hfirst.buf] at hall
    simp only [deliver_cons _ _ _ _ rest, servable_cons]
    exact hall

/-- All a `READ` has to serve before the refill that ends it: the unread bytes, then a series of refills. -/
theorem State.serves_offered {s : State} {refills : List (List Byte)} {src : Source} (hr : s.readerOk)
    (hyields : s.src.yields (2 * s.regs.rdBlksz.toNat) refills src) :
    ∃ t, Serves 0 (s.regs.rdFilled.toNat - s.regs.rdPos.toNat + servable refills) (fun c => s.offered c refills) refills
      src s t := by
  obtain ⟨t, hunread⟩ := State.serves_unread 0 hr
  rw [← hunread.source, ← hunread.blksz] at hyields
  obtain ⟨u, hrefills⟩ := State.serves_refills _ hunread.reader hunread.exhausted hyields
  have hall := hunread.trans hrefills
  rw [hunread.blksz, hunread.buf] at hall
  exact ⟨u, hall⟩

/-- What one more refill adds to the bytes a `READ` is offered (R134, R138). -/
theorem State.offered_append (s : State) (c : Fin 2) (refills more : List (List Byte)) :
    s.offered c (refills ++ more) = s.offered c refills ++
      deliver s.regs.rdBlksz.toNat c.val (refills.foldl refillContents (s.readByte .buf)) more := by
  rw [State.offered, deliver_append, ← List.append_assoc]
  rfl

/-- `READ n` answers `t` after `refills` and a last refill `last` that covers the request; the source is then `src`. -/
structure ReadServed (n : Nat) (refills : List (List Byte)) (last : List Byte) (src : Source) (s t : State) : Prop where
  run     : exec (.read n) s = .next t
  buf     : ∀ a, t.readByte .buf a = (refills ++ [last]).foldl refillContents (s.readByte .buf) a
  ch      : ∀ (c : Fin 2) (a : Nat), t.readByte (.ch c) a =
    if a < n then (s.offered c (refills ++ [last])).getD a 0 else s.readByte (.ch c) a
  filled  : t.regs.rdFilled.toNat = last.length / 2
  pos     : t.regs.rdPos.toNat = n - (s.regs.rdFilled.toNat - s.regs.rdPos.toNat + servable refills)
  source  : t.src = src
  emitted : t.regs.rdEmitted.toNat = min (s.regs.rdEmitted.toNat + 8 * n) s.regs.fmtTotal.toNat
  result  : t.regs.result.toNat = n - (s.regs.rdEmitted.toNat + 8 * n - s.regs.fmtTotal.toNat) / 8
  frame   : t = { s with
    buf := t.buf, ch0 := t.ch0, ch1 := t.ch1, src := t.src
    regs := { s.regs with
      rdFilled := t.regs.rdFilled, rdPos := t.regs.rdPos, rdEmitted := t.regs.rdEmitted,
      result := t.regs.result, statusErr := 0 } }

/-- The last refill: it covers what is left of the request, and the loop ends with as much of it copied (R132, R134). -/
theorem readLoop_last {s : State} {last : List Byte} {src : Source} {rem : Nat} (ret : Nat) (hr : s.readerOk)
    (hp : s.regs.rdPos = s.regs.rdFilled) (hread : s.src.read (2 * s.regs.rdBlksz.toNat) = some (last, src))
    (hrem : 0 < rem) (hcovers : rem ≤ last.length / 2) :
    readLoop 1 rem ret s = .served (ret + rem) ((s.refilled last src).copyOut ret rem) := by
  obtain ⟨r, rfl⟩ := Nat.exists_eq_add_one.2 hrem
  have hne : last ≠ [] := by
    rintro rfl
    simp at hcovers
  rw [readLoop_refill hr hp hread hne, Nat.min_eq_left hcovers, Nat.sub_self, readLoop_done]

/-- A `READ` over any series of refills, the last of which covers the request (R132 to R136). -/
theorem exec_read_served {s : State} {n : Nat} {refills : List (List Byte)} {last : List Byte} {mid src : Source}
    (husable : s.sourceUsable n) (hcap : n ≤ s.build.chCap) (hn : n < 2 ^ 32) (hr : s.readerOk)
    (hyields : s.src.yields (2 * s.regs.rdBlksz.toNat) refills mid)
    (hread : mid.read (2 * s.regs.rdBlksz.toNat) = some (last, src))
    (hmore : s.regs.rdFilled.toNat - s.regs.rdPos.toNat + servable refills < n)
    (hcovers : n - (s.regs.rdFilled.toNat - s.regs.rdPos.toNat + servable refills) ≤ last.length / 2) :
    ∃ t, ReadServed n refills last src s t := by
  obtain ⟨t, h⟩ := State.serves_offered hr hyields
  generalize hm : s.regs.rdFilled.toNat - s.regs.rdPos.toNat + servable refills = m at h hmore hcovers
  rw [← h.source, ← h.blksz] at hread
  have hlen := (Source.read_spec hread).1
  obtain ⟨k, hk⟩ := h.loop n hmore
  have hloop := (hk 1).trans (readLoop_last (0 + m) h.reader h.exhausted hread (by omega) hcovers)
  rw [Nat.zero_add, show m + (n - m) = n by omega] at hloop
  have hkeeps := readLoop_served_keeps hloop
  have hch := h.ch.trans h.length (t.refilled_copyOut_appends src (0 + m) hcovers)
  rw [Nat.zero_add, show m + (n - m) = n by omega, h.blksz, h.buf] at hch
  have hcontents : ((t.refilled last src).copyOut m (n - m)).readByte .buf =
      (refills ++ [last]).foldl refillContents (s.readByte .buf) := by
    rw [State.copyOut_contents, State.refilled_contents, h.buf, List.foldl_append]
    rfl
  refine ⟨((t.refilled last src).copyOut m (n - m)).report n,
    exec_read_of_readLoop husable hcap hr hloop (by simp), fun a => ?_, fun c a => ?_, ?_, ?_, rfl,
    hkeeps.report_emitted n, hkeeps.report_result hn, ?_⟩
  · rw [State.report_readByte, hcontents]
  · rw [State.report_readByte, hch c a, State.offered_append]
    simp
  · exact State.refilled_filled (src := src) hlen
  · rw [hm]
    show (BitVec.ofNat 32 (0 + (n - m))).toNat = n - m
    rw [Nat.zero_add, Word32.toNat_ofNat_of_lt (by omega)]
  · rw [hkeeps.eq]
    rfl

/-- Settles O22: `exec_read_served`. -/
theorem readServesWhateverItsRefillsBring : Obligations.ReadServesWhateverItsRefillsBring := by
  intro s n refills last src husable hcap hn hreader hyields m hmore hcovers
  obtain ⟨mid, hyields', -, hread⟩ := Source.yields_concat hyields
  obtain ⟨t, h⟩ := exec_read_served husable hcap (by omega) hreader hyields' hread hmore (by omega)
  exact ⟨t, h.run, h.buf, h.ch, h.filled, h.pos, h.source, h.emitted, h.result, h.frame⟩

/-- The bytes offered by one refill, by position: the unread ones, then those of the channel's region of `BUF`. -/
theorem State.offered_singleton_getD {s : State} (c : Fin 2) {bytes : List Byte} {a : Nat}
    (ha : a < s.regs.rdFilled.toNat - s.regs.rdPos.toNat + bytes.length / 2) :
    (s.offered c [bytes]).getD a 0 =
      if a < s.regs.rdFilled.toNat - s.regs.rdPos.toNat then s.readByte .buf (s.unread c + a)
      else refillContents (s.readByte .buf) bytes
        (c.val * s.regs.rdBlksz.toNat + (a - (s.regs.rdFilled.toNat - s.regs.rdPos.toNat))) := by
  rw [State.offered]
  split
  · rename_i hunread
    rw [List.getD_append _ _ _ _ (by rwa [State.readBytes_length]), List.getD,
      State.readBytes_getElem? _ _ _ _ _ hunread]
    rfl
  · rw [List.getD_append_right _ _ _ _ (by rw [State.readBytes_length]; omega), State.readBytes_length,
      deliver_singleton_getD (by omega)]

/-- Settles O20: `exec_read_served` with no refill before the last. -/
theorem readContinuesInTheNextBlock : Obligations.ReadContinuesInTheNextBlock := by
  intro s n m bytes src husable hcap hn hreader hm hpos hmore hread hcovers
  obtain rfl : m = s.regs.rdFilled.toNat - s.regs.rdPos.toNat := by omega
  obtain ⟨t, h⟩ := exec_read_served (refills := []) husable hcap (by omega) hreader rfl hread hmore hcovers
  refine ⟨t, h.run, h.buf, fun c a => ?_, h.filled, h.pos, h.source, h.emitted, h.result, h.frame⟩
  rw [h.ch c a, List.nil_append]
  by_cases ha : a < n
  · rw [if_pos ha, if_pos ha, State.offered_singleton_getD c (by omega), h.buf]
    rfl
  · rw [if_neg ha, if_neg ha, if_neg (by omega)]

/-- Settles O17: `exec_read_served` with nothing unread and no refill before the last. -/
theorem readRefillsAndServes : Obligations.ReadRefillsAndServes := by
  intro s n bytes src husable hn hcap hreader hexhausted hread hcovers
  have hunread := (State.exhausted_iff hreader).1 hexhausted
  have hlen := (Source.read_spec hread).1
  have hblksz := s.regs.rdBlksz.isLt
  obtain ⟨t, h⟩ := exec_read_served (refills := []) husable hcap (by omega) hreader rfl hread
    (by rw [hunread]; exact hn) ((Nat.sub_le _ _).trans hcovers)
  refine ⟨t, h.run, h.buf, fun c a => ?_, h.filled, by rw [h.pos, hunread]; rfl, h.source, h.emitted, h.result, h.frame⟩
  rw [h.ch c a, List.nil_append]
  split
  · rw [State.offered_singleton_getD c (by omega), hunread, if_neg a.not_lt_zero, h.buf]
    rfl
  · rfl

/-- A `READ` that ends with an empty refill reports nothing and leaves the rest as its loop does (R135). -/
theorem ReadKeeps.complete_eq {lo hi : Nat} {s u : State} (h : ReadKeeps lo hi s u) :
    u.complete 0 = { s with
      buf := u.buf, ch0 := u.ch0, ch1 := u.ch1, src := u.src
      regs := { s.regs with
        rdFilled := u.regs.rdFilled, rdPos := u.regs.rdPos, result := 0, statusErr := 0 } } := by
  rw [h.eq]
  rfl

/-- Settles O23: the loop goes through the refills by `State.serves_offered`, and the empty one ends it. -/
theorem partialReadIsNeverReported : Obligations.PartialReadIsNeverReported := by
  intro s n refills mid src husable hcap hreader hyields hread m hmore
  obtain ⟨t, h⟩ := State.serves_offered hreader hyields
  rw [← h.source, ← h.blksz] at hread
  obtain ⟨k, hk⟩ := h.loop n hmore
  have hloop : readLoop (1 + k) n 0 s = .empty { t with src := src } := by
    obtain ⟨r, hrem⟩ := Nat.exists_eq_add_one.2 (Nat.sub_pos_of_lt hmore)
    rw [hk, hrem, readLoop_refill_empty h.exhausted hread]
  have hkeeps := readLoop_keeps (1 + k) n 0 s
  simp only [hloop] at hkeeps
  refine ⟨_, exec_read_of_readLoop husable hcap hreader hloop (by simp), fun a => ?_, fun c a => ?_, h.filled, ?_⟩
  · exact congrFun h.buf a
  · have hch := h.ch c a
    simp only [Nat.zero_le, true_and, Nat.zero_add, Nat.sub_zero] at hch
    exact hch
  · refine hkeeps.complete_eq.trans ?_
    simp only [h.exhausted]
    rfl

end Sys2Proof.Machine
end

section
/-! SUPPORT. MUX (42_direct_interleave.md): what each byte of `OUT` is after `ENCD n`, a byte of a whole group (R151) and a byte
of the tail after them (R152), and the state it leaves. -/

namespace Sys2Proof.Machine

/-- Channel `c`'s four bytes of a direct frame come after those of the channels before it (R98). -/
theorem State.directFrame_getElem? (s : State) (g : Nat) (c : Fin 2) {k : Nat} (hk : k < 4) :
    (s.directFrame g)[4 * c.val + k]? = some (s.normByte c (4 * g + k)) := by
  rcases channel_cases c with rfl | rfl <;> interval_cases k <;> rfl

/-- A byte of a whole group after `ENCD n`: the channel's byte, normalised (R151). -/
theorem State.afterEncd_readByte_group (s : State) {n g k : Nat} (c : Fin 2) (hg : g < n / 4) (hk : k < 4) :
    (s.afterEncd n).readByte .out (8 * g + 4 * c.val + k) = s.normByte c (4 * g + k) := by
  have hc := c.isLt
  rw [State.afterEncd_readByte, if_pos (by omega),
    List.getD_append _ _ _ _ (by rw [State.directFrames_length]; omega), List.getD_eq_getElem?_getD, Nat.add_assoc,
    State.directFrames_getElem? s hg (by omega), State.directFrame_getElem? s g c hk, Option.getD_some]

/-- A byte of the tail after `ENCD n`: the next free byte (R152). -/
theorem State.afterEncd_readByte_tail (s : State) {n a : Nat} (hlo : 8 * (n / 4) ≤ a) (hhi : a < 2 * n) :
    (s.afterEncd n).readByte .out a = Config.freeByte (s.draws + (a - 8 * (n / 4))) := by
  rw [State.afterEncd_readByte, if_pos hhi, List.getD_append_right _ _ _ _ (by rwa [State.directFrames_length]),
    State.directFrames_length, State.freeBytes, List.getD_eq_getElem?_getD, List.getElem?_map,
    List.getElem?_range (by rw [directTail]; omega)]
  rfl

/-- Settles O32: the bytes of the whole groups by `State.afterEncd_readByte_group`, those from `2n` up by
`State.afterEncd_readByte`; the rest of the state is as `State.afterEncd` says. -/
theorem encdWritesDirectFrames : Obligations.EncdWritesDirectFrames := by
  intro s n hcap hn
  have hword : decode (encode (.encd n)) = .ok (.encd n) := decode_encode (decide_eq_true hn)
  refine ⟨hword, s.afterEncd n, exec_encd_eq hcap, fun g k hg hk => ⟨?_, ?_⟩, fun a ha => ?_, ?_, rfl⟩
  · exact s.afterEncd_readByte_group 0 hg hk
  · exact s.afterEncd_readByte_group 1 hg hk
  · rw [State.afterEncd_readByte, if_neg (by omega)]
  · exact Word32.toNat_ofNat_of_lt (by omega)

/-- Settles O34: the groups are whole, so each byte of `OUT` is one of a channel, and reversing it twice gives it back. -/
theorem encdOfReversedBytesUndoesTheReversal : Obligations.EncdOfReversedBytesUndoesTheReversal := by
  intro s1 s2 t1 t2 n hwhole hlsb1 hlsb2 hbytes h1 h2 a ha
  obtain ⟨-, rfl⟩ := exec_encd_next h1
  obtain ⟨-, rfl⟩ := exec_encd_next h2
  have hsame : ∀ (c : Fin 2) (b : Nat), b < n → s1.normByte c b = s2.normByte c b := by
    intro c b hb
    rw [State.normByte, State.normByte, hlsb1, hlsb2, hbytes c b hb]
    exact (tableIsSelfInverse _).1
  have hplace : ∃ (g : Nat) (c : Fin 2) (k : Nat), k < 4 ∧ a = 8 * g + 4 * c.val + k :=
    ⟨a / 8, ⟨a / 4 % 2, by omega⟩, a % 4, by omega, by show a = 8 * (a / 8) + 4 * (a / 4 % 2) + a % 4; omega⟩
  obtain ⟨g, c, k, hk, rfl⟩ := hplace
  have hg : g < n / 4 := by omega
  rw [State.afterEncd_readByte_group s1 c hg hk, State.afterEncd_readByte_group s2 c hg hk]
  exact hsame c _ (by omega)

/-- Settles O33: `State.afterEncd_readByte_tail`, with the count of draws `State.afterEncd` leaves. -/
theorem encdTailIsFree : Obligations.EncdTailIsFree := by
  intro s t n h
  obtain ⟨-, rfl⟩ := exec_encd_next h
  exact ⟨rfl, fun _ => s.afterEncd_readByte_tail⟩

end Sys2Proof.Machine
end

section
/-! SUPPORT. DOP (43_dop_frame.md): what each byte of `OUT` is after `ENCP n` with an even `n` (R161), and the state an odd `n`
leaves (R162). -/

namespace Sys2Proof.Machine

/-- A byte of a DoP frame after `ENCP n`, at its place in the group-major, channel-minor order (R99, R161). -/
theorem State.afterEncp_readByte_frame (s : State) {n g k : Nat} (c : Fin 2) (hg : g < n / 2) (hk : k < 3) :
    (s.afterEncp n).readByte .out ((g * 2 + c.val) * 3 + k) = (s.dopFrame g c).getD k 0 := by
  have hc := c.isLt
  rw [State.afterEncp_readByte, if_pos (by omega), List.getD_eq_getElem?_getD, State.dopFrames_frame s c hg hk,
    List.getD_eq_getElem?_getD]

/-- Settles O35: the frames by `State.afterEncp_readByte_frame`, the bytes from `3n` up by `State.afterEncp_readByte`; an odd
`n` by `exec_encp_odd`. -/
theorem encpWritesDopFrames : Obligations.EncpWritesDopFrames := by
  intro s n hcap hn
  have hword : decode (encode (.encp n)) = .ok (.encp n) := decode_encode (decide_eq_true hn)
  refine ⟨hword, exec_encp_odd hcap, fun heven => ?_⟩
  refine ⟨s.afterEncp n, exec_encp_eq hcap heven, fun g c hg => ⟨?_, ?_, ?_⟩, fun a ha => ?_, ?_, rfl⟩
  · exact s.afterEncp_readByte_frame (k := 0) c hg (by decide)
  · exact s.afterEncp_readByte_frame c hg (by decide)
  · exact s.afterEncp_readByte_frame c hg (by decide)
  · rw [State.afterEncp_readByte, if_neg (by omega)]
  · calc (BitVec.ofNat 32 (3 * 2 * (n / 2))).toNat
      _ = 3 * 2 * (n / 2) := Word32.toNat_ofNat_of_lt (by omega)
      _ = 3 * n := by omega

/-- Settles O36: `exec_encp_odd`, and by O38 no command reads the two registers it leaves changed. -/
theorem oddEncpRaisesFramingError : Obligations.OddEncpRaisesFramingError := fun s _ hcap hodd =>
  ⟨exec_encp_odd hcap hodd, fun i => noCommandReadsTheOutcomeRegisters i s 0 1⟩

end Sys2Proof.Machine
end

section
/-! SUPPORT. The record of whether the source serves a stream (47_host_sequence.md R191, log 25): who changes it, and that where
R215's closed list is followed no command heeds it. -/

namespace Sys2Proof.Machine

/-- No command but `INIT` changes the record. -/
theorem exec_use {i : Instr} {s t : State} (hinit : i ≠ .init) (h : exec i s = .next t) : t.use = s.use := by
  cases i with
  | init => exact absurd rfl hinit
  | read n =>
    obtain ⟨u, hu, rfl | rfl⟩ := exec_read_keeps h
    · exact hu.use
    · exact hu.use
  | encd n | encp n | rev b | norm b => rw [exec_changes_out_only hinit rfl h]

/-- The end of a run leaves the record as it is. -/
@[simp] theorem State.finish_use (s : State) (o : RunOutcome) : (s.finish o).use = s.use := by
  unfold State.finish
  split <;> rfl

/-- `open` handles the source, whether the parse succeeds or fails (R171, R175). -/
theorem State.openContainer_use {s t : State} (h : s.openContainer = .next t) : t.use = s.use.touch := by
  obtain ⟨hp, -⟩ := State.inPhase_next h
  cases hparse : parseContainer s.agent.profile s.src s.src.cursor with
  | ok p =>
    rw [State.openContainer_of_ok hp hparse] at h
    exact Host.Outcome.next.inj h ▸ rfl
  | error e =>
    rw [State.openContainer_of_error hp hparse] at h
    exact Host.Outcome.next.inj h ▸ State.finish_use ..

/-- The state with another record. -/
def State.withUse (u : StreamUse) (s : State) : State := { s with use := u }

section Use
variable (u : StreamUse) (s : State)

theorem State.refill_withUse : (s.withUse u).refill = s.refill.mapState (State.withUse u) := by
  have hsame : (s.withUse u).src = s.src ∧ (s.withUse u).regs = s.regs := ⟨rfl, rfl⟩
  rw [State.refill, State.refill, hsame.1, hsame.2]
  cases s.src.read (2 * s.regs.rdBlksz.toNat) with
  | none => rfl
  | some answer =>
    dsimp only
    rw [apply_ite (Refill.mapState _), apply_ite (Refill.mapState _)]
    rfl

theorem State.refillIfExhausted_withUse :
    (s.withUse u).refillIfExhausted = s.refillIfExhausted.mapState (State.withUse u) := by
  unfold State.refillIfExhausted
  rw [State.refill_withUse, apply_ite (Refill.mapState _)]
  rfl

/-- The loop of `READ` carries the record along unread (R132). -/
theorem readLoop_withUse (fuel rem ret : Nat) :
    readLoop fuel rem ret (s.withUse u) = (readLoop fuel rem ret s).mapState (State.withUse u) := by
  induction fuel generalizing rem ret s with
  | zero => cases rem <;> rfl
  | succ fuel ih =>
    cases rem with
    | zero => rfl
    | succ rem =>
      rw [readLoop_step, readLoop_step, State.refillIfExhausted_withUse]
      cases s.refillIfExhausted with
      | stuck f => rfl
      | empty t => rfl
      | data t =>
        dsimp only [Refill.mapState]
        rw [apply_ite (ReadEnd.mapState _), ← ih]
        rfl

theorem ReadEnd.outcome_mapState_withUse (r : ReadEnd) :
    (r.mapState (State.withUse u)).outcome = mapNext (State.withUse u) r.outcome := by cases r <;> rfl

/-- Where R215 is followed a command other than `INIT` has the same outcome whatever the record says (log 25). -/
theorem exec_withUse {i : Instr} (hinit : i ≠ .init) (hlax : s.build.strictDuties = false) :
    exec i (s.withUse u) = mapNext (State.withUse u) (exec i s) := by
  cases i with
  | init => exact absurd rfl hinit
  | read n =>
    have hduty (kept : Bool) : s.build.strictDuties = true → kept = true := by simp [hlax]
    have hduty' (kept : Bool) : (s.withUse u).build.strictDuties = true → kept = true := hduty kept
    rw [exec_read_guards, exec_read_guards, State.withDuty_eq (hduty _), State.withDuty_eq (hduty' _), readLoop_withUse,
      ReadEnd.outcome_mapState_withUse]
    unfold State.withSource State.withCount
    rw [apply_ite (mapNext _), apply_ite (mapNext _)]
    rfl
  | encd n =>
    simp only [exec, execEncd, State.withCount, apply_ite (mapNext _)]
    rfl
  | encp n =>
    simp only [exec, execEncp, State.withCount, apply_ite (mapNext _)]
    rfl
  | rev b | norm b => rfl

end Use

/-- `INIT` writes the record and does not read it. -/
theorem exec_init_withUse (u : StreamUse) (s : State) : exec .init (s.withUse u) = exec .init s := rfl

/-- Settles O42: `INIT`'s state by `exec_init_next`, the other commands by `exec_use`; `open` and an attached source touch the
record; and by `exec_withUse` no command heeds it where R215 is followed. -/
theorem aTouchedSourceIsReadAsItStands : Obligations.ATouchedSourceIsReadAsItStands := by
  refine ⟨fun s t h => ?_, fun i s t => exec_use, fun s t a rest htodo ha huse h => ?_, fun s t rest htodo h => ?_,
    fun i s u hlax => ?_⟩
  · obtain ⟨-, -, rfl⟩ := exec_init_next h
    rfl
  · rw [step_cons htodo] at h
    have htouch : t.use = s.use.touch := by
      obtain rfl | ⟨stream, more, answers, thereafter, fit, rfl⟩ := ha
      · exact State.openContainer_use (s := s.popped rest) h
      · exact Host.Outcome.next.inj h ▸ rfl
    rw [htouch, huse, StreamUse.touch]
  · rw [step_cons htodo] at h
    exact Host.Outcome.next.inj h ▸ rfl
  · by_cases hi : i = .init
    · subst hi
      refine (exec_init_withUse u s).trans ?_
      cases exec .init s <;> rfl
    · simp only [if_neg hi]
      refine (exec_withUse u s hi hlax).trans ?_
      cases exec i s <;> rfl

end Sys2Proof.Machine
end

section
/-! SUPPORT. The host's container parser as a formula (47_host_sequence.md R172 to R174): it succeeds when each of its reads and
checks does, the first that does not decides the failure, and what it yields fits the registers the host stages it in. -/

namespace Sys2Proof.Machine

/-- A computation that goes on after another succeeds when both do. -/
theorem bind_eq_ok_iff {ε α β : Type} {x : Except ε α} {g : α → Except ε β} {b : β} :
    (x >>= g) = .ok b ↔ ∃ a, x = .ok a ∧ g a = .ok b := by
  cases x with
  | ok a => simp [bind, Except.bind]
  | error e => simp [bind, Except.bind]

theorem bind_of_eq_ok {ε α β : Type} {x : Except ε α} {a : α} (h : x = .ok a) (g : α → Except ε β) :
    (x >>= g) = g a := by
  rw [h]
  rfl

theorem bind_of_eq_error {ε α β : Type} {x : Except ε α} {e : ε} (h : x = .error e) (g : α → Except ε β) :
    (x >>= g) = .error e := by
  rw [h]
  rfl

theorem need_eq_ok_iff {ok : Bool} {e : ParseError} {u : Unit} : need ok e = .ok u ↔ ok = true := by
  cases ok <;> simp [need]

/-- A check that is met lets the parser go on. -/
theorem need_bind_of_true {α : Type} {ok : Bool} (h : ok = true) (e : ParseError) (rest : Unit → Except ParseError α) :
    (need ok e >>= rest) = rest () := bind_of_eq_ok (need_eq_ok_iff.2 h) rest

section CheckedField
variable {α : Type} {src : Source} {offset width v k : Nat} {e : ParseError} {rest : Nat → Except ParseError α}

/-- A field of which one value alone is accepted holds that value, or the parser does not go on. -/
theorem checkedField_eq_ok_iff {b : α} :
    ((do let v ← field src offset width; need (v == k) e; rest v) = .ok b) ↔
      field src offset width = .ok k ∧ rest k = .ok b := by
  simp only [bind_eq_ok_iff, need_eq_ok_iff, exists_const, beq_iff_eq]
  constructor
  · rintro ⟨v, hv, rfl, hrest⟩
    exact ⟨hv, hrest⟩
  · exact fun ⟨hv, hrest⟩ => ⟨k, hv, rfl, hrest⟩

theorem checkedField_of_ok (h : field src offset width = .ok k) :
    (do let v ← field src offset width; need (v == k) e; rest v) = rest k := by
  rw [bind_of_eq_ok h, need_bind_of_true (beq_self_eq_true k)]

/-- Another value is the failure reported, whatever the parser would have gone on to. -/
theorem checkedField_of_ne (h : field src offset width = .ok v) (hne : v ≠ k) :
    (do let v ← field src offset width; need (v == k) e; rest v) = .error e := by
  rw [bind_of_eq_ok h]
  exact bind_of_eq_error (by simp [need, hne]) _

end CheckedField

/-- The format fields (R172, R173 (3)). -/
theorem parseFormat_eq_ok_iff (src : Source) (fmt : Nat) (f : StreamFormat) :
    parseFormat src fmt = .ok f ↔
      ∃ bits, field src (fmt + 12) 4 = .ok 1 ∧ field src (fmt + 16) 4 = .ok 0 ∧ field src (fmt + 20) 4 = .ok 2 ∧
        field src (fmt + 24) 4 = .ok 2 ∧ f.numChannels = 2 ∧ field src (fmt + 28) 4 = .ok f.samplingRate ∧
        (f.samplingRate = 2822400 ∨ f.samplingRate = 5644800) ∧ field src (fmt + 32) 4 = .ok bits ∧
        (bits = 1 ∧ f.isLsbFirst = true ∨ bits = 8 ∧ f.isLsbFirst = false) ∧
        field src (fmt + 36) 8 = .ok f.totalSamples ∧ field src (fmt + 44) 4 = .ok f.blockSize := by
  obtain ⟨frate, fchannels, ftotal, flsbf, fblock⟩ := f
  unfold parseFormat
  simp only [↓checkedField_eq_ok_iff, bind_eq_ok_iff, need_eq_ok_iff, exists_const, Bool.or_eq_true, beq_iff_eq, pure,
    Except.pure, Except.ok.injEq, StreamFormat.mk.injEq]
  constructor
  · rintro ⟨hversion, hid, htype, hchannels, rate, hrate, hrates, bits, hbits, hbit, total, htotal, block, hblock,
      rfl, rfl, rfl, rfl, rfl⟩
    refine ⟨bits, hversion, hid, htype, hchannels, rfl, hrate, hrates, hbits, ?_, htotal, hblock⟩
    rcases hbit with rfl | rfl <;> simp
  · rintro ⟨bits, hversion, hid, htype, hchannels, rfl, hrate, hrates, hbits, hbit, htotal, hblock⟩
    refine ⟨hversion, hid, htype, hchannels, _, hrate, hrates, bits, hbits, ?_, _, htotal, _, hblock,
      rfl, rfl, rfl, ?_, rfl⟩
    · exact hbit.imp And.left And.left
    · rcases hbit with ⟨rfl, rfl⟩ | ⟨rfl, rfl⟩ <;> rfl

/-- The chunks around them (R172, R173). -/
theorem parseContainer_eq_ok_iff (p : ContainerProfile) (src : Source) (top first : Nat) (f : StreamFormat) :
    parseContainer p src top = .ok (f, first) ↔
      ∃ s1 s2 s3, field src top 4 = .ok p.tagA.toNat ∧ field src (top + 4) 8 = .ok s1 ∧ 12 ≤ s1 ∧
        field src (top + s1) 4 = .ok p.tagB.toNat ∧ field src (top + s1 + 4) 8 = .ok s2 ∧
        48 ≤ s2 ∧ parseFormat src (top + s1) = .ok f ∧ field src (top + s1 + s2) 4 = .ok p.tagC.toNat ∧
        field src (top + s1 + s2 + 4) 8 = .ok s3 ∧ s3 ∉ p.rejectedSizes ∧ first = top + s1 + s2 + 12 := by
  have hsize (size : Nat) : dataSizeOk p size = true ↔ size ∉ p.rejectedSizes := by simp [dataSizeOk]
  unfold parseContainer
  simp only [↓checkedField_eq_ok_iff, bind_eq_ok_iff, need_eq_ok_iff, exists_const, decide_eq_true_eq, hsize, pure,
    Except.pure, Except.ok.injEq, Prod.mk.injEq]
  constructor
  · rintro ⟨hA, s1, hs1, hle1, hB, s2, hs2, g, hformat, hle2, hC, s3, hs3, hok, rfl, rfl⟩
    exact ⟨s1, s2, s3, hA, hs1, hle1, hB, hs2, hle2, hformat, hC, hs3, hok, rfl⟩
  · rintro ⟨s1, s2, s3, hA, hs1, hle1, hB, hs2, hle2, hformat, hC, hs3, hok, rfl⟩
    exact ⟨hA, s1, hs1, hle1, hB, s2, hs2, f, hformat, hle2, hC, s3, hs3, hok, rfl, rfl⟩

/-- Settles O53: the chunks by `parseContainer_eq_ok_iff`, the fields of the format chunk by `parseFormat_eq_ok_iff`. -/
theorem parserAcceptsTheProfileOnly : Obligations.ParserAcceptsTheProfileOnly := by
  intro p src top first f
  simp only [parseContainer_eq_ok_iff, parseFormat_eq_ok_iff, ← exists_and_left, ← exists_and_right, and_assoc]

/-- Settles O54: what stands before the wrong tag lets the parser go on to it, and there `checkedField_of_ne` fails. -/
theorem theFirstBadTagDecides : Obligations.TheFirstBadTagDecides := by
  refine fun p src top => ⟨fun m hm hne => checkedField_of_ne hm hne, fun s1 hA hs1 hle1 => ?_⟩
  unfold parseContainer
  rw [checkedField_of_ok hA, bind_of_eq_ok hs1, need_bind_of_true (decide_eq_true hle1)]
  refine ⟨fun m hm hne => checkedField_of_ne hm hne, fun s2 f m hB hs2 hle2 hformat hm hne => ?_⟩
  rw [checkedField_of_ok hB, bind_of_eq_ok hs2, bind_of_eq_ok hformat, need_bind_of_true (decide_eq_true hle2)]
  exact checkedField_of_ne hm hne

/-! What the parser yields fits: a field of `width` bytes is a number below `256 ^ width` (R63). -/

theorem littleEndian_lt (bytes : List Byte) : littleEndian bytes < 256 ^ bytes.length := by
  induction bytes with
  | nil => simp [littleEndian]
  | cons b rest ih =>
    have hb := b.isLt
    rw [List.length_cons, pow_succ]
    simp only [littleEndian, List.foldr_cons] at ih ⊢
    omega

theorem field_lt {src : Source} {offset width v : Nat} (h : field src offset width = .ok v) : v < 256 ^ width := by
  unfold field at h
  dsimp only at h
  split at h
  · rename_i hlength
    obtain rfl := Except.ok.inj h
    simpa only [hlength] using littleEndian_lt (src.bytesAt offset width)
  · simp at h

/-- What a parse yields is two channels, and numbers that fit the staging registers (R30, R174). -/
theorem parseContainer_fits {p : ContainerProfile} {src : Source} {top first : Nat} {f : StreamFormat}
    (h : parseContainer p src top = .ok (f, first)) :
    f.numChannels = 2 ∧ f.samplingRate < 2 ^ 32 ∧ f.totalSamples < 2 ^ 64 ∧ f.blockSize < 2 ^ 32 := by
  obtain ⟨s1, s2, s3, -, -, -, -, -, -, hformat, -⟩ := (parseContainer_eq_ok_iff ..).1 h
  obtain ⟨bits, -, -, -, -, htwo, hrate, -, -, -, htotal, hblock⟩ := (parseFormat_eq_ok_iff ..).1 hformat
  exact ⟨htwo, field_lt hrate, field_lt htotal, field_lt hblock⟩

end Sys2Proof.Machine
end

section
/-! SUPPORT. The phases of the playback loop (47_host_sequence.md R180 to R185): each by the answer of the sink that decides it; a
run that is over stays over, and the only way into `Terminated` is `State.finish`, which releases everything. -/

namespace Sys2Proof.Machine

theorem State.writeReg_agent (s : State) (reg : Nat) (v : Word64) : (s.writeReg reg v).agent = s.agent := by
  unfold State.writeReg
  split <;> rfl

/-- `phase <- Terminated` from a phase that is not (R185): what is released. -/
theorem State.finish_of_running {s : State} (h : ∀ o, s.agent.phase ≠ .terminated o) (o : RunOutcome) :
    s.finish o = { s with
      src := s.src.close
      agent := { s.agent.releaseAll with phase := .terminated o, todo := [] }
      sink := { s.sink with config := none } } := by
  unfold State.finish
  split
  · rename_i o' hp
    exact absurd hp (h o')
  · rfl

/-- `Negotiating` with a sink that accepts (R183). -/
theorem State.negotiate_of_accept {s : State} (hp : s.agent.phase = .negotiating)
    (h : s.sink.configAnswers.headD true = true) :
    s.negotiate = .next { s with
      sink := { s.sink with configAnswers := s.sink.configAnswers.tail, config := some s.sinkConfig }
      agent := { s.agent.acquire .sink with phase := .streaming } } := by
  rw [State.negotiate, State.inPhase_eq hp]
  exact if_pos h

/-- `Negotiating` with a sink that refuses (R183). -/
theorem State.negotiate_of_refuse {s : State} (hp : s.agent.phase = .negotiating)
    (h : s.sink.configAnswers.headD true = false) :
    s.negotiate = .next ({ s with
      sink := { s.sink with configAnswers := s.sink.configAnswers.tail } }.finish .sinkNegotiationError) := by
  rw [State.negotiate, State.inPhase_eq hp]
  exact if_neg (ne_true_of_eq_false h)

/-- The state in which the sink has been handed the first `2 * r` bytes of `OUT` and has answered (R184, R186). -/
def State.framesHanded (s : State) : State :=
  { s with sink := { s.sink with
    handed := s.sink.handed ++ s.readBytes .out 0 (2 * s.agent.r)
    writeAnswers := s.sink.writeAnswers.tail } }

/-- The write of `r / 4` frames, by the sink's answer (R184). -/
theorem State.writeFrames_eq {s : State} (hp : s.agent.phase = .streaming)
    (hr : s.inRange .out 0 (2 * s.agent.r) = true) :
    s.writeFrames = match s.sink.accepts (s.agent.r / 4) with
      | some k => if k < s.agent.r / 4 then .next (s.framesHanded.finish .sinkWriteError) else .next s.framesHanded
      | none => .next (s.framesHanded.finish .sinkWriteError) := by
  rw [State.writeFrames, State.inPhase_eq hp, State.withRange_eq hr]
  rfl

/-- A sink that accepts at least the frames submitted lets the loop go on (R184, log 17). -/
theorem State.writeFrames_of_accepted {s : State} {k : Nat} (hp : s.agent.phase = .streaming)
    (hr : s.inRange .out 0 (2 * s.agent.r) = true) (h : s.sink.accepts (s.agent.r / 4) = some k)
    (hk : s.agent.r / 4 ≤ k) : s.writeFrames = .next s.framesHanded := by
  rw [State.writeFrames_eq hp hr, h]
  exact if_neg (by omega)

/-- Fewer frames accepted, or an error, ends the run (R184). -/
theorem State.writeFrames_of_short {s : State} (hp : s.agent.phase = .streaming)
    (hr : s.inRange .out 0 (2 * s.agent.r) = true)
    (h : ∀ k, s.sink.accepts (s.agent.r / 4) = some k → k < s.agent.r / 4) :
    s.writeFrames = .next (s.framesHanded.finish .sinkWriteError) := by
  rw [State.writeFrames_eq hp hr]
  cases hk : s.sink.accepts (s.agent.r / 4) with
  | none => rfl
  | some k => exact if_pos (h k hk)

/-- No action leaves `Terminated` or changes how the run ended. -/
theorem hostAct_terminated {a : HostAction} {s t : State} {o : RunOutcome} (h : hostAct a s = .next t)
    (ho : s.agent.phase = .terminated o) : t.agent.phase = .terminated o := by
  obtain ⟨w, i, -, -, hexec⟩ | ⟨reg, v, -, -, -, rfl⟩ | ⟨sp, addr, bytes, -, -, rfl⟩ | ⟨-, rfl⟩ | hagents :=
    hostAct_next h
  · rw [(exec_keeps hexec).agent, ho]
  · rw [State.writeReg_agent, ho]
  · rw [State.writeBytes_agent, ho]
  · exact ho
  · exact hagents.final o ho

/-- Settles O58: an idle host stays in its phase, and `hostAct_terminated` says so of one that acts. -/
theorem terminatedIsFinal : Obligations.TerminatedIsFinal := by
  intro s t o ho h
  obtain ⟨-, rfl⟩ | ⟨a, rest, -, hact⟩ := step_next h
  · exact ho
  · exact hostAct_terminated hact ho

/-- From `s` to `t` the run either does not end, or ends by `State.finish` of a state whose host is that of `s`. -/
inductive EndsByFinish (s t : State) : Prop where
  | goesOn (h : ∀ o, t.agent.phase = .terminated o → s.agent.phase = .terminated o)
  | ends (u : State) (o : RunOutcome) (h : t = u.finish o) (hagent : u.agent = s.agent)

theorem EndsByFinish.of_phase {s t : State} (h : t.agent.phase = s.agent.phase) : EndsByFinish s t :=
  .goesOn fun _ ho => h ▸ ho

/-! Which actions can end the run: no command, no register write, no jump, no hand-over; a phase of the loop by its answer. -/

theorem State.issueWord_ends {s t : State} {w : Word32} (h : s.issueWord w = .next t) : EndsByFinish s t := by
  obtain ⟨i, -, hexec⟩ := State.issueWord_next h
  exact .of_phase (by rw [(exec_keeps hexec).agent])

theorem State.issueCommand_ends {s t : State} {i : Instr} (h : s.issueCommand i = .next t) : EndsByFinish s t :=
  State.issueWord_ends (State.issueCommand_next h).2

theorem State.jump_ends {s t : State} {l : Nat} (h : s.jump l = .next t) : EndsByFinish s t := by
  unfold State.jump at h
  split at h
  · exact .of_phase (Host.Outcome.next.inj h ▸ rfl)
  · simp at h

theorem State.handOver_ends {s t : State} {count : Nat} (h : s.handOver count = .next t) : EndsByFinish s t := by
  obtain ⟨-, h⟩ := State.withRange_next h
  exact .of_phase (Host.Outcome.next.inj h ▸ rfl)

theorem State.openContainer_ends {s t : State} (h : s.openContainer = .next t) : EndsByFinish s t := by
  obtain ⟨hp, -⟩ := State.inPhase_next h
  cases hparse : parseContainer s.agent.profile s.src s.src.cursor with
  | ok p =>
    rw [State.openContainer_of_ok hp hparse] at h
    exact .of_phase (Host.Outcome.next.inj h ▸ Agent.acquire_phase ..)
  | error e =>
    rw [State.openContainer_of_error hp hparse] at h
    exact .ends _ _ (Host.Outcome.next.inj h).symm rfl

theorem State.negotiate_ends {s t : State} (h : s.negotiate = .next t) : EndsByFinish s t := by
  obtain ⟨hp, -⟩ := State.inPhase_next h
  cases hanswer : s.sink.configAnswers.headD true with
  | true =>
    rw [State.negotiate_of_accept hp hanswer] at h
    exact Host.Outcome.next.inj h ▸ .goesOn fun o ho => by cases ho
  | false =>
    rw [State.negotiate_of_refuse hp hanswer] at h
    exact .ends _ _ (Host.Outcome.next.inj h).symm rfl

theorem State.writeFrames_ends {s t : State} (h : s.writeFrames = .next t) : EndsByFinish s t := by
  obtain ⟨hp, hrange⟩ := State.inPhase_next h
  obtain ⟨hr, -⟩ := State.withRange_next hrange
  by_cases hshort : ∀ k, s.sink.accepts (s.agent.r / 4) = some k → k < s.agent.r / 4
  · rw [State.writeFrames_of_short hp hr hshort] at h
    exact .ends _ _ (Host.Outcome.next.inj h).symm rfl
  · push Not at hshort
    obtain ⟨k, haccepts, hk⟩ := hshort
    rw [State.writeFrames_of_accepted hp hr haccepts hk] at h
    exact .of_phase (Host.Outcome.next.inj h ▸ rfl)

/-- No action ends the run but by `State.finish` (R185). -/
theorem hostAct_ends {a : HostAction} {s t : State} (h : hostAct a s = .next t) : EndsByFinish s t := by
  cases a with
  | wr reg v =>
    simp only [hostAct, State.hostWrite] at h
    split_ifs at h
    · exact State.issueWord_ends h
    · exact .of_phase (Host.Outcome.next.inj h ▸ congrArg _ (State.writeReg_agent ..))
  | rd reg =>
    simp only [hostAct, State.hostRead] at h
    split at h
    · exact .of_phase (Host.Outcome.next.inj h ▸ rfl)
    · simp at h
  | command | encdR => exact State.issueCommand_ends h
  | ld sp addr bytes =>
    obtain ⟨-, h⟩ := State.withRange_next h
    exact .of_phase (Host.Outcome.next.inj h ▸ congrArg _ (State.writeBytes_agent ..))
  | st sp addr count =>
    obtain ⟨-, h⟩ := State.withRange_next h
    exact .of_phase (Host.Outcome.next.inj h ▸ rfl)
  | sink | sinkR => exact State.handOver_ends h
  | goto l => exact State.jump_ends h
  | gotoIfResultZero l | gotoIfRZero l =>
    simp only [hostAct] at h
    split at h
    · exact State.jump_ends h
    · exact .of_phase (Host.Outcome.next.inj h ▸ rfl)
  | attach => exact .of_phase (Host.Outcome.next.inj h ▸ Agent.acquire_phase ..)
  | openContainer => exact State.openContainer_ends h
  | configured =>
    obtain ⟨-, h⟩ := State.inPhase_next h
    exact Host.Outcome.next.inj h ▸ .goesOn fun o ho => by cases ho
  | negotiate => exact State.negotiate_ends h
  | writeFramesR => exact State.writeFrames_ends h
  | checkErr =>
    simp only [hostAct] at h
    split at h
    · exact .of_phase (Host.Outcome.next.inj h ▸ rfl)
    · exact .ends _ _ (Host.Outcome.next.inj h).symm rfl
  | terminate o => exact .ends _ _ (Host.Outcome.next.inj h).symm rfl
  | rdResultToR | label | resetCore => exact .of_phase (Host.Outcome.next.inj h ▸ rfl)

/-- Settles O57: the step ends the run by `State.finish` (`hostAct_ends`), which releases everything
(`State.finish_of_running`). -/
theorem terminationReleasesEverything : Obligations.TerminationReleasesEverything := by
  intro s t o hrun h ho
  obtain ⟨-, rfl⟩ | ⟨a, rest, -, hact⟩ := step_next h
  · exact absurd ho (hrun o)
  · cases hostAct_ends hact with
    | goesOn hgoes => exact absurd (hgoes o ho) (hrun o)
    | ends u o' hfinish hagent =>
      rw [State.finish_of_running (by rw [hagent]; exact hrun)] at hfinish
      subst hfinish
      refine ⟨rfl, rfl, ?_, rfl, fun k => Source.read_close ..⟩
      show u.agent.released ++ u.agent.held = _
      rw [hagent]
      rfl

/-- Settles O55: the state `open` leaves has a discarded source, which by O39 refuses both commands. -/
theorem failedParseSpoilsTheSource : Obligations.FailedParseSpoilsTheSource := by
  intro s e rest htodo hp hparse
  have hact := State.openContainer_of_error (s := s.popped rest) hp hparse
  rw [State.finish_of_running (by simp [State.popped, hp])] at hact
  refine ⟨_, (step_cons htodo).trans hact, rfl, rfl, rfl, ?_, fun n => ?_⟩
  · exact (commandsRefuseTheClosedListOnly ..).2 (.inl ⟨.inl rfl, rfl, rfl⟩)
  · exact (commandsRefuseTheClosedListOnly ..).2 (.inl ⟨.inr ⟨n, rfl⟩, rfl, rfl⟩)

/-- Settles O59: the sink's answer decides between `State.negotiate_of_accept` and `State.negotiate_of_refuse`. -/
theorem negotiationConfiguresTheSink : Obligations.NegotiationConfiguresTheSink := by
  intro s rest htodo hp
  have hp' : (s.popped rest).agent.phase = .negotiating := hp
  cases hanswer : s.sink.configAnswers.headD true with
  | true =>
    refine ⟨_, (step_cons htodo).trans (State.negotiate_of_accept hp' hanswer), rfl, fun _ => ?_, nofun⟩
    exact ⟨rfl, Agent.acquire_todo .., _, rfl, rfl, rfl, rfl⟩
  | false =>
    have hact := State.negotiate_of_refuse hp' hanswer
    rw [State.finish_of_running (by simp [hp'])] at hact
    exact ⟨_, (step_cons htodo).trans hact, rfl, nofun, fun _ => ⟨rfl, rfl, rfl⟩⟩

/-- Settles O60: the number of frames accepted decides between `State.writeFrames_of_accepted` and
`State.writeFrames_of_short`. -/
theorem shortSinkWriteIsFatal : Obligations.ShortSinkWriteIsFatal := by
  intro s rest htodo hp hcap
  have hp' : (s.popped rest).agent.phase = .streaming := hp
  have hr : (s.popped rest).inRange .out 0 (2 * s.agent.r) = true :=
    (State.inRange_iff ..).2 (.inr ((Nat.zero_add _).trans_le hcap))
  by_cases hshort : ∀ k, s.sink.accepts (s.agent.r / 4) = some k → k < s.agent.r / 4
  · have hact := State.writeFrames_of_short hp' hr hshort
    rw [State.finish_of_running (by simp [State.framesHanded, hp'])] at hact
    refine ⟨_, (step_cons htodo).trans hact, rfl, fun ⟨k, haccepts, hk⟩ => ?_, fun _ => ⟨rfl, rfl, rfl⟩⟩
    exact absurd (hshort k haccepts) (Nat.not_lt.2 hk)
  · push Not at hshort
    obtain ⟨k, haccepts, hk⟩ := hshort
    exact ⟨_, (step_cons htodo).trans (State.writeFrames_of_accepted hp' hr haccepts hk), rfl, fun _ => ⟨hp, rfl, rfl⟩,
      fun h => absurd (h k haccepts) (Nat.not_lt.2 hk)⟩

end Sys2Proof.Machine
end

section
/-! SUPPORT. The host configures the core (30_encoding.md R97; 47_host_sequence.md R176, R181): `OPEN`'s four writes and its `INIT`
as one run of five steps, and the whole of phase `Init` on a container that parses. -/

namespace Sys2Proof.Machine

/-- The staging registers after the four writes of `OPEN` (R97). -/
def Regs.staged (r : Regs) (rate : Nat) (lsbf : Bool) (total blksz : Nat) : Regs :=
  { r with cfgSrate := BitVec.ofNat 32 rate, cfgLsbf := lsbf, cfgTotal := BitVec.ofNat 64 total,
           cfgBlksz := BitVec.ofNat 32 blksz }

section OpenScript
variable {s : State} {rate total blksz : Nat} {lsbf : Bool} {rest : List HostAction}

/-- The four writes, one after another. -/
theorem State.writeReg_staged (s : State) (rate total blksz : Nat) (lsbf : Bool) :
    (((s.writeReg 1 (BitVec.ofNat 64 rate)).writeReg 2 (if lsbf then 1 else 0)).writeReg 3
      (BitVec.ofNat 64 total)).writeReg 4 (BitVec.ofNat 64 blksz) =
        { s with regs := s.regs.staged rate lsbf total blksz } := by
  cases lsbf <;> simp [State.writeReg, Regs.staged]

/-- The four writes of `OPEN` stage what is given to it. -/
theorem core_run_writes (k : Nat) (htodo : s.agent.todo = openScript rate lsbf total blksz ++ rest) :
    Sys2Proof.core.run (k + 4) s = Sys2Proof.core.run k
      { s.popped (.command .init :: rest) with regs := s.regs.staged rate lsbf total blksz } := by
  rw [core_run_cons htodo rfl, core_run_cons rfl rfl, core_run_cons rfl rfl, core_run_cons rfl rfl]
  exact congrArg _ (State.writeReg_staged (s.popped (.command .init :: rest)) rate total blksz lsbf)

/-- `OPEN` makes what is given to it the active format, with an empty reader. -/
theorem core_run_openScript (k : Nat) (htodo : s.agent.todo = openScript rate lsbf total blksz ++ rest)
    (hsrc : s.sourceReady) (hfits : blksz < 2 ^ 32) (hblksz : blksz ≤ s.build.blkszMax) :
    Sys2Proof.core.run (k + 5) s = Sys2Proof.core.run k { s.popped rest with
      use := .inUse
      regs := { (s.regs.staged rate lsbf total blksz).activate with result := 0, statusErr := 0 } } := by
  have hcfg : (BitVec.ofNat 32 blksz).toNat ≤ s.build.blkszMax := (Word32.toNat_ofNat_of_lt hfits).trans_le hblksz
  exact (core_run_writes (k + 1) htodo).trans
    (core_run_cons rfl ((State.issueCommand_of_wellFormed rfl _).trans (exec_init_eq hsrc hcfg)))

end OpenScript

/-- The end of phase `Init` (R181). -/
theorem hostAct_configured {s : State} (hp : s.agent.phase = .init) :
    hostAct .configured s = .next { s with agent := { s.agent with phase := .negotiating } } := State.inPhase_eq hp _

/-- Settles O56: the parse puts `OPEN` on the host's script, `core_run_openScript` runs it, and what the parser yields fits the
registers (`parseContainer_fits`), so they hold it. -/
theorem successfulParseConfiguresTheCore : Obligations.SuccessfulParseConfiguresTheCore := by
  intro s f first rest htodo hp hsrc hparse hblksz
  obtain ⟨htwo, hrate, htotal, hblock⟩ := parseContainer_fits hparse
  obtain ⟨u, hopen, hscript, hphase, husrc, hbuild⟩ : ∃ u, (s.popped rest).openContainer = .next u ∧
      u.agent.todo = openScript f.samplingRate f.isLsbFirst f.totalSamples f.blockSize ++ .configured :: rest ∧
      u.agent.phase = .init ∧ u.src = { s.src with cursor := first, fit := true } ∧ u.build = s.build :=
    ⟨_, State.openContainer_of_ok hp hparse, rfl, (Agent.acquire_phase ..).trans hp, rfl, rfl⟩
  have hready : u.sourceReady := by
    rw [State.sourceReady, husrc]
    exact ⟨hsrc, fun _ => rfl⟩
  rw [core_run_cons htodo hopen, core_run_openScript 1 hscript hready hblock (hbuild ▸ hblksz)]
  refine ⟨_, core_run_cons rfl (hostAct_configured hphase), rfl, rfl, husrc, ?_⟩
  exact ⟨Word32.toNat_ofNat_of_lt hrate, rfl, Nat.mod_eq_of_lt htotal, Word32.toNat_ofNat_of_lt hblock,
    rfl, rfl, rfl, rfl, htwo, rfl, rfl, rfl, rfl, rfl⟩

end Sys2Proof.Machine
end

section
/-! SUPPORT. FramingError (60_exceptions.md R201): which command sets `STATUS.ERR`, and what the others leave in it. -/

namespace Sys2Proof.Machine

/-- Raised by an odd `ENCP` and by nothing else: any other command that completes ends by clearing the flag (R200 (a), R201). -/
theorem exec_clears_statusErr {i : Instr} {s t : State} (heven : ∀ n, i = .encp n → n % 2 = 0) (h : exec i s = .next t) :
    t.regs.statusErr = 0 := by
  cases i with
  | init =>
    obtain ⟨-, -, rfl⟩ := exec_init_next h
    rfl
  | read n =>
    obtain ⟨u, -, rfl | rfl⟩ := exec_read_keeps h
    · rfl
    · rfl
  | encd n =>
    obtain ⟨-, rfl⟩ := exec_encd_next h
    rfl
  | encp n =>
    obtain ⟨-, ⟨hodd, -⟩ | ⟨-, rfl⟩⟩ := exec_encp_next h
    · have := heven n rfl
      omega
    · rfl
  | rev b | norm b =>
    obtain rfl := Host.Outcome.next.inj h
    rfl

/-- Settles O37: an odd `ENCP` that completes is within `CH_CAP`, so it raises FramingError (`exec_encp_odd`); all else is
`exec_clears_statusErr`. -/
theorem framingErrorComesFromOddEncpOnly : Obligations.FramingErrorComesFromOddEncpOnly := by
  refine fun i s t h => ⟨?_, fun heven => exec_clears_statusErr heven h⟩
  rintro ⟨n, rfl, hodd⟩
  have hcap := (exec_encp_next h).1
  exact (Host.Outcome.next.inj ((exec_encp_odd hcap hodd).symm.trans h)).symm

end Sys2Proof.Machine
end
